-- ==== Sys2Proof/Word.lean ====
section
/-! DEFINITION. The word types of the block: bytes, 16-bit registers, 32-bit values, the tick and
the FIFO cursors (spec/00_scope.md R9, R10; spec/10_state.md R25, R29). -/

namespace Sys2Proof

/-- A byte of the link, the FIFO or the assembly buffer (R10). -/
abbrev Byte := BitVec 8

/-- A register value, a wire address, a wire count, a checksum (R9, R130). -/
abbrev Word := BitVec 16

/-- A 32-bit value: timestamps and heating-timer seconds (R33, R252). -/
abbrev Word32 := BitVec 32

/-- A value of the millisecond tick, `TICK_W` = 32 bits (R8, R325). -/
abbrev Tick := BitVec 32

/-- A FIFO cursor: 10 bits, free-running modulo `2 * FIFO_CAP` = 1024 (R25). -/
abbrev Cursor := BitVec 10

/-- The result type of `TEMP_TABLE`. DESIGN CHOICE (log 3): 16 bits; the spec leaves the type of a
temperature to the model (R251, D23). -/
abbrev Temp := BitVec 16

end Sys2Proof
end

