-- ==== Sys2Proof/Config.lean ====
section
/-! DEFINITION. The implementation parameters of spec/00_scope.md R8: the values the spec states,
and the OPEN ones as uninterpreted constants. -/

namespace Sys2Proof

/-- The parameters an operation may depend on and that the spec leaves OPEN or makes optional (R8):
the model's operations take them as an argument. -/
structure Params where
  /-- `CK`, a total function from byte sequences to 16 bits (R130). -/
  ck : List Byte → Word
  /-- `TEMP_TABLE`, a total function from the 16-bit level to a temperature (R251). -/
  tempTable : Word → Temp
  /-- `ECHO_DISCARD`, the diagnostic echo of discarded bytes (R177, D26). -/
  echoDiscard : Bool

namespace Config

/-- `FIFO_CAP` (R8, R24). -/
def fifoCap : Nat := 512

/-- `TIMEOUT_MS` (R8, R163). -/
def timeoutMs : Nat := 100

/-- `MARKER` (R8). -/
def marker : Byte := 0x01#8

/-- `CMD_READ` (R8, R91). -/
def cmdRead : Byte := 0x03#8

/-- `CMD_WRITE` (R8, R91). -/
def cmdWrite : Byte := 0x10#8

/-- `REF_THRESHOLD` (R8, D13). -/
def refThreshold : Nat := 7

/-- `N_STORED` (R8). -/
def nStored : Nat := 5

/-- `REG_END = REF_THRESHOLD + N_STORED` (R8). -/
def regEnd : Nat := refThreshold + nStored

/-- `ID_SET_ALARM` (R8, D13). -/
def idSetAlarm : Nat := 2

/-- `ID_SET_UTC` (R8, D13). -/
def idSetUtc : Nat := 5

/-- `UPLOAD_BASE = REF_THRESHOLD` (R8, D25). -/
def uploadBase : Nat := refThreshold

/-- `UPLOAD_COUNT` (R8). -/
def uploadCount : Nat := 6

/-- `UTC_OFFSET_S`, 8 hours in seconds (R8, R217). -/
def utcOffsetS : Word32 := 28800#32

/-- The least `ASM_CAP` the spec admits (R8). R97 and D6 call it the length of the longest valid
request, a write of all five stored registers; R211 admits longer writes that start below the
threshold. DESIGN CHOICE (log 32): the bound 19 is kept, and validity follows R211. -/
def asmCapMin : Nat := 19

/-- The longest frame a request can declare: `9 + 255` bytes (R97). -/
def maxFrame : Nat := 264

/-- OPEN (R131, D1; log 1): the checksum function. Nothing is assumed of it but that it is a
function of the bytes (R132). -/
opaque ck : List Byte → Word

/-- OPEN (R28, D6; log 2): how far `ASM_CAP` lies above its least admitted value. -/
opaque asmExtra : Nat

/-- `ASM_CAP`, the size of the assembly buffer in bytes (R28): at least 19 by construction (R8, U10). -/
def asmCap : Nat := asmExtra + asmCapMin

/-- The width of `asm_len` in bits, `ceil(log2(ASM_CAP + 1))` (R28). -/
def asmLenBits : Nat := Nat.clog 2 (asmCap + 1)

/-- OPEN (R251, D23; log 3): the temperature table, total on every 16-bit level. -/
opaque tempTable : Word → Temp

/-- The parameters of the machine that `exec` and `step` run: the OPEN ones uninterpreted,
`ECHO_DISCARD` at its default (D26; log 18). -/
def params : Params where
  ck := ck
  tempTable := tempTable
  echoDiscard := true

end Config

end Sys2Proof
end

