-- ==== Sys2Proof/Syntax.lean ====
section
/-! DEFINITION. The instructions: one constructor per row of spec/opcode_table.json. -/

namespace Sys2Proof

/-- The rows of the opcode table: the two requests the block decodes (R92, R94), the two responses
it encodes (R93, R95), the upload pseudo-form (R112, R255), and the twelve register ids, each the
work of one iteration of the write loop (R213) on the payload it consumes (R31). -/
inductive Instr where
  /-- `RDREQ address, count` (R92, R201). -/
  | rdreq (address count : Word)
  /-- `WRREQ address, count, data`; `LL` is the number of data bytes (R94, R210). -/
  | wrreq (address count : Word) (data : List Byte)
  /-- `RDRSP v0, v1, ...`, block to host (R93). -/
  | rdrsp (values : List Word)
  /-- `WRRSP address, count`, block to host (R95, R220). -/
  | wrrsp (address count : Word)
  /-- `UPLOAD`: the six values are read when it is executed (R112, R255). -/
  | upload
  /-- Register id 0, unassigned (R219). -/
  | regUnassigned0 (v : Word)
  /-- Register id 1, power-off (R247). -/
  | regPowerOff (v : Word)
  /-- Register id 2, set-alarm: the two packed halves of the payload (R32, R216). -/
  | regSetAlarm (h0 h1 : Word)
  /-- Register id 3, delete-alarm (R248). -/
  | regDeleteAlarm (v : Word)
  /-- Register id 4, execute-shortcut (R249). -/
  | regExecShortcut (v : Word)
  /-- Register id 5, set-UTC-time: the 32-bit timestamp of the payload (R33, R217). -/
  | regSetUtc (ts : Word32)
  /-- Register id 6, unassigned (R219). -/
  | regUnassigned6 (v : Word)
  /-- Register id 7, heating status (R250). -/
  | regHeatStatus (v : Word)
  /-- Register id 8, heating level (R251). -/
  | regHeatLevel (v : Word)
  /-- Register id 9, heating timer (R252). -/
  | regHeatTimer (v : Word)
  /-- Register id 10, shortcut slot 1 (R253). -/
  | regShortcut1 (v : Word)
  /-- Register id 11, shortcut slot 2 (R253). -/
  | regShortcut2 (v : Word)
deriving DecidableEq, Repr

end Sys2Proof
end

