-- ==== Sys2Proof/WellFormed.lean ====
section
/-! DEFINITION. Which instructions have an encoding: the widths of `LL` in the frames that carry a
variable payload (R93, R94, R98). -/

namespace Sys2Proof

/-- The instruction fits its encoding. `LL` is one byte, so a write carries at most 255 data bytes
(R94) and a read response at most 127 values, and at least one (R93, R203). Validity of a request
(R203, R211) is no part of this: an invalid request is a well-formed frame (R107). -/
def Instr.wf : Instr → Bool
  | .rdreq _ _ => true
  | .wrreq _ _ data => decide (data.length ≤ 255)
  | .rdrsp values => decide (1 ≤ values.length) && decide (values.length ≤ 127)
  | .wrrsp _ _ => true
  | .upload => true
  | .regUnassigned0 _ => true
  | .regPowerOff _ => true
  | .regSetAlarm _ _ => true
  | .regDeleteAlarm _ => true
  | .regExecShortcut _ => true
  | .regSetUtc _ => true
  | .regUnassigned6 _ => true
  | .regHeatStatus _ => true
  | .regHeatLevel _ => true
  | .regHeatTimer _ => true
  | .regShortcut1 _ => true
  | .regShortcut2 _ => true

end Sys2Proof
end

