-- ==== Sys2Proof/Decode.lean ====
section
/-! DEFINITION. Byte order (R11, R60), the request decoder (R165 to R170), the register-entry
decoder of the write loop (R31, R99), the host-side response decoder (R93, R95, C6), the encoder,
and the reading of a word of spec/opcode_table.json. -/

namespace Sys2Proof

/-! ## Byte order (R11, R60) -/

/-- `be16(v)`: high byte first (R11). -/
def be16 (v : Word) : List Byte :=
  [v.extractLsb' 8 8, v.extractLsb' 0 8]

/-- The four bytes of a 32-bit value, high byte first (R11, R60). -/
def be32 (v : Word32) : List Byte :=
  [v.extractLsb' 24 8, v.extractLsb' 16 8, v.extractLsb' 8 8, v.extractLsb' 0 8]

/-- `BE16(s)` of the first two bytes of `s` (R11). A byte that is not there counts as 0 (log 28):
no rule applies `BE16` to fewer than two bytes. -/
def be16Val (s : List Byte) : Word :=
  s.getD 0 0 ++ s.getD 1 0

/-- `BE32(s)` of the first four bytes of `s` (R11); missing bytes as in `be16Val`. -/
def be32Val (s : List Byte) : Word32 :=
  be16Val s ++ be16Val (s.drop 2)

/-! ## Frame errors (R301) -/

/-- The causes of a failed parse, each by its name in R301. None carries a value. -/
inductive FrameError where
  /-- Byte 0 is not `MARKER` (R165). -/
  | badMarker
  /-- Fewer bytes than needed to know or to hold the frame (R166, R168, R169). -/
  | truncated
  /-- Byte 1 is neither command byte (R168). -/
  | badCommand
  /-- The trailing two bytes differ from `CK` of the rest (R170). -/
  | badChecksum
deriving DecidableEq, Repr

/-! ## Requests -/

/-- The length of the frame at offset 0, learnt from its first bytes (R96), with the checks of R165
to R168 in their order. -/
def frameLength (buf : List Byte) : Except FrameError Nat :=
  match buf with
  | [] => .error .truncated
  | m :: rest =>
    if m = Config.marker then
      match rest with
      | [] => .error .truncated
      | c :: _ =>
        if c = Config.cmdRead then .ok 8
        else if c = Config.cmdWrite then
          if buf.length < 7 then .error .truncated else .ok (9 + (buf.getD 6 0).toNat)
        else .error .badCommand
    else .error .badMarker

/-- The fields of a whole request frame (R92, R94, R201, R210). Both command bytes are named and a
last arm is for no entry (R200, R254); `frameLength` lets no other command byte reach it (R168). -/
def requestOf (f : List Byte) : Option Instr :=
  if f.getD 1 0 = Config.cmdRead then
    some (.rdreq (be16Val (f.drop 2)) (be16Val (f.drop 4)))
  else if f.getD 1 0 = Config.cmdWrite then
    some (.wrreq (be16Val (f.drop 2)) (be16Val (f.drop 4)) ((f.drop 7).take (f.getD 6 0).toNat))
  else none

/-- The request at offset 0 of `buf` and its length, with every check of `Parse` but the checksum
(R165 to R169). Bytes beyond the frame are allowed (R169). -/
def decode (buf : List Byte) : Except FrameError (Instr × Nat) :=
  match frameLength buf with
  | .error e => .error e
  | .ok len =>
    if buf.length < len then .error .truncated
    else
      match requestOf (buf.take len) with
      | some i => .ok (i, len)
      | none => .error .badCommand

/-- The checksum field of a frame equals `CK` over everything before it (R90, R170). -/
def checksumOk (p : Params) (f : List Byte) : Bool :=
  p.ck (f.take (f.length - 2)) == be16Val (f.drop (f.length - 2))

/-- `Parse(buf)` (R165 to R170): the checks in order, the checksum last (R313). -/
def parse (p : Params) (buf : List Byte) : Except FrameError (Instr × Nat) :=
  match decode buf with
  | .error e => .error e
  | .ok (i, len) => if checksumOk p (buf.take len) then .ok (i, len) else .error .badChecksum

/-! ## The register id map (R21, R31, D13) -/

/-- The twelve ids of the register table, ids 0 to 11 (R31, R21). -/
inductive RegId where
  | unassigned0
  | powerOff
  | setAlarm
  | deleteAlarm
  | execShortcut
  | setUtc
  | unassigned6
  | heatStatus
  | heatLevel
  | heatTimer
  | shortcut1
  | shortcut2
deriving DecidableEq, Repr

/-- The number of an id (R21, R31, D13). -/
def RegId.num : RegId → Nat
  | .unassigned0 => 0
  | .powerOff => 1
  | .setAlarm => 2
  | .deleteAlarm => 3
  | .execShortcut => 4
  | .setUtc => 5
  | .unassigned6 => 6
  | .heatStatus => 7
  | .heatLevel => 8
  | .heatTimer => 9
  | .shortcut1 => 10
  | .shortcut2 => 11

/-- The id with a number; ids from `REG_END` = 12 on are undefined (R34, R72, R108). -/
def RegId.ofNum : Nat → Option RegId
  | 0 => some .unassigned0
  | 1 => some .powerOff
  | 2 => some .setAlarm
  | 3 => some .deleteAlarm
  | 4 => some .execShortcut
  | 5 => some .setUtc
  | 6 => some .unassigned6
  | 7 => some .heatStatus
  | 8 => some .heatLevel
  | 9 => some .heatTimer
  | 10 => some .shortcut1
  | 11 => some .shortcut2
  | _ => none

/-- The id has a slot: `REF_THRESHOLD <= id` (R21, R23, R31). -/
def RegId.stored (r : RegId) : Bool :=
  decide (Config.refThreshold ≤ r.num)

/-- The register entry of a write: what the id selects (R102) with the payload bytes it consumes,
which start at `data[0]` (R31, R99). -/
def entryOf (r : RegId) (data : List Byte) : Instr :=
  match r with
  | .unassigned0 => .regUnassigned0 (be16Val data)
  | .powerOff => .regPowerOff (be16Val data)
  | .setAlarm => .regSetAlarm (be16Val data) (be16Val (data.drop 2))
  | .deleteAlarm => .regDeleteAlarm (be16Val data)
  | .execShortcut => .regExecShortcut (be16Val data)
  | .setUtc => .regSetUtc (be32Val data)
  | .unassigned6 => .regUnassigned6 (be16Val data)
  | .heatStatus => .regHeatStatus (be16Val data)
  | .heatLevel => .regHeatLevel (be16Val data)
  | .heatTimer => .regHeatTimer (be16Val data)
  | .shortcut1 => .regShortcut1 (be16Val data)
  | .shortcut2 => .regShortcut2 (be16Val data)

/-- The register entry for a 16-bit address, none for an undefined id (R102, R108). -/
def decodeEntry (id : Nat) (data : List Byte) : Option Instr :=
  (RegId.ofNum id).map (entryOf · data)

/-! ## Responses, decoded by the host and never by the block (R102, R200, C6) -/

/-- The 16-bit values of a byte string, big-endian (R93, R99). -/
def wordsOf : List Byte → List Word
  | hi :: lo :: rest => be16Val [hi, lo] :: wordsOf rest
  | [_] => []
  | [] => []

/-- A host-side decoder of one whole response frame (R93, R95): the layout, not the checksum, which
`checksumOk` tests. `none` for a frame that is neither layout; a read response whose `LL` is odd or
0 is neither (log 29). -/
def decodeResponse (f : List Byte) : Option Instr :=
  if f.getD 0 0 = Config.marker then
    if f.getD 1 0 = Config.cmdRead then
      let ll := (f.getD 2 0).toNat
      if f.length = 5 + ll ∧ ll % 2 = 0 ∧ 0 < ll then some (.rdrsp (wordsOf ((f.drop 3).take ll)))
      else none
    else if f.getD 1 0 = Config.cmdWrite then
      if f.length = 8 then some (.wrrsp (be16Val (f.drop 2)) (be16Val (f.drop 4))) else none
    else none
  else none

/-! ## The encoder -/

/-- The first six bytes of a write response, and of the write request it echoes (R94, R95). -/
def wrrspBody (address count : Word) : List Byte :=
  [Config.marker, Config.cmdWrite] ++ be16 address ++ be16 count

/-- A read response before its checksum (R93, R205). -/
def rdrspBody (values : List Word) : List Byte :=
  [Config.marker, Config.cmdRead, BitVec.ofNat 8 (2 * values.length)] ++ values.flatMap be16

/-- A frame from the bytes before its checksum: the checksum is appended high byte first (R61, R90). -/
def sealFrame (p : Params) (body : List Byte) : List Byte :=
  body ++ be16 (p.ck body)

/-- The bytes of an instruction, from the layouts of R92 to R95. A register entry is its 16-bit
address followed by the payload bytes it consumes (format REGID of R102; on the wire the two stand
in the address field and the data field of a `WRREQ`). The upload's values are read when it is
executed (R255), so only its fixed bytes are an encoding: marker, command, `LL` (log 25). -/
def encode (p : Params) : Instr → List Byte
  | .rdreq address count =>
    sealFrame p ([Config.marker, Config.cmdRead] ++ be16 address ++ be16 count)
  | .wrreq address count data =>
    sealFrame p (wrrspBody address count ++ [BitVec.ofNat 8 data.length] ++ data)
  | .rdrsp values => sealFrame p (rdrspBody values)
  | .wrrsp address count => sealFrame p (wrrspBody address count)
  | .upload => [Config.marker, Config.cmdRead, BitVec.ofNat 8 (2 * Config.uploadCount)]
  | .regUnassigned0 v => be16 0 ++ be16 v
  | .regPowerOff v => be16 1 ++ be16 v
  | .regSetAlarm h0 h1 => be16 2 ++ be16 h0 ++ be16 h1
  | .regDeleteAlarm v => be16 3 ++ be16 v
  | .regExecShortcut v => be16 4 ++ be16 v
  | .regSetUtc ts => be16 5 ++ be32 ts
  | .regUnassigned6 v => be16 6 ++ be16 v
  | .regHeatStatus v => be16 7 ++ be16 v
  | .regHeatLevel v => be16 8 ++ be16 v
  | .regHeatTimer v => be16 9 ++ be16 v
  | .regShortcut1 v => be16 10 ++ be16 v
  | .regShortcut2 v => be16 11 ++ be16 v

/-! ## Words of spec/opcode_table.json -/

/-- 16-bit words from bit 0 of `w` up, each high byte first (R60, R102), the bits above `nbits` zero,
`n` words in all. -/
def wordBytes (nbits w : Nat) : Nat → List Byte
  | 0 => []
  | n + 1 => be16 (BitVec.ofNat 16 (w % 2 ^ nbits)) ++ wordBytes (nbits - 16) (w / 65536) n

/-- The bytes of a table word, with as many zero bytes after it as the longest frame it can head
takes: at least the 19 bytes of R97, and the declared payload where the word reaches byte 6, the
`LL` of R94 (bits 63 to 56). -/
def tableBytes (nbits w : Nat) : List Byte :=
  wordBytes nbits w ((Config.asmCapMin + 1 + w % 2 ^ nbits / 2 ^ 56 % 256) / 2)

/-- The instruction a table word stands for (log 6). A word whose first byte is `MARKER` heads a
frame (R102) and is read by the request decoder, because whatever the block decodes is a request
(R200); any other word is a register address (format REGID) and is read by the entry decoder with
the payload bytes that follow. -/
def decodeTableWord (nbits w : Nat) : Option Instr :=
  let bytes := tableBytes nbits w
  if bytes.getD 0 0 = Config.marker then
    match decode bytes with
    | .ok (i, _) => some i
    | .error _ => none
  else
    decodeEntry (be16Val bytes).toNat (bytes.drop 2)

end Sys2Proof
end

