-- ==== Sys2Proof/Machine/State.lean ====
section
/-! DEFINITION. The state of the block (spec/10_state.md R20), its outputs and inputs as plain data,
the reasons a step can stop, and the machine right after reset (R39, R340). -/

namespace Sys2Proof.Machine

/-- A byte-addressed memory: the listed (address, byte) pairs, every other address reading
`memDefault`. Its canonical form is `Memory.wf` (Machine/Ops.lean). -/
abbrev Memory := List Host.Cell

/-- What an address that is not listed reads as. DESIGN CHOICE (log 8): the spec leaves the contents
of unused buffer slots open (R24, R28, R39, U6) and no rule reads them. -/
def memDefault : Byte := 0#8

/-- A count of bytes in the assembly buffer, `0 <= asm_len <= ASM_CAP` (R28). -/
abbrev AsmLen := Fin (Config.asmCap + 1)

/-- No byte. -/
def AsmLen.zero : AsmLen := ⟨0, Nat.succ_pos _⟩

/-- The five stored registers of the table `x`, ids 7 to 11 (R21). -/
structure Regs where
  /-- `x[7]`, heating status. -/
  heatStatus : Word
  /-- `x[8]`, heating level. -/
  heatLevel : Word
  /-- `x[9]`, heating timer, in minutes. -/
  heatTimer : Word
  /-- `x[10]`, shortcut slot 1, a packed Shortcut record (R276). -/
  shortcut1 : Word
  /-- `x[11]`, shortcut slot 2. -/
  shortcut2 : Word
deriving DecidableEq, Repr

/-- The decoder phase (R30, R296). -/
inductive Phase where
  /-- Between polls, and inside a poll until the ready test passes. -/
  | accumulating
  /-- The ready test passed, parsing in progress. -/
  | frameReady
  /-- Marker, command, length and checksum all good. -/
  | validated
  /-- A parse failed. -/
  | resync
deriving DecidableEq, Repr

/-- The Alarm record a set-alarm write carries (R32, R272). -/
structure AlarmRecord where
  minute : BitVec 6
  hour : BitVec 5
  alarmId : BitVec 5
  enabled : Bool
  repeats : Bool
  /-- Bit 0 is Monday, bit 6 is Sunday (R32). -/
  weekdays : BitVec 7
  ringtone : BitVec 7
deriving DecidableEq, Repr

/-- The action alphabet, complete (R37, R271). -/
inductive Action where
  | shutdown
  | setAlarm (r : AlarmRecord)
  | deleteAlarm (v : Word)
  | execShortcut (v : Word)
  | setClock (t : Word32)
  | setHeatingActive (b : Bool)
  | setHeatingLevel (level : Word) (temp : Temp)
  | setHeatingTimer (seconds : Word32)
  | setTimeDisplay
  | ack
deriving DecidableEq, Repr

/-- One output of the block: a byte of `tx` or an entry of `act` (R36, R37). The two streams are
kept in one list so that their relative order (R221) is state too (log 10). -/
inductive Output where
  | byte (b : Byte)
  | action (a : Action)
deriving DecidableEq, Repr

/-- The two execution contexts (R320). -/
inductive Context where
  /-- The receive-complete interrupt: may call `Push` only. -/
  | interrupt
  /-- The cooperative super-loop: everything else. -/
  | poll
deriving DecidableEq, Repr

/-- The port operations, which have no encoding (R70, R113). -/
inductive PortOp where
  /-- `Push(b)` (R141, R142). -/
  | push (b : Byte)
  /-- `Poll(now)` (R160). -/
  | poll (now : Tick)
  /-- `Upload` (R255). -/
  | upload
  /-- `RegGet(id)` (R240). -/
  | regGet (id : Word)
  /-- `RegSet(id, v)` (R242). -/
  | regSet (id v : Word)
  /-- `Drain(max_len)`, called directly (R70, R113). It is no port of the whole block (R270), which
  refuses it (U14; log 12); the FIFO alone runs it, as `FifoOp.drain`. -/
  | drain (maxLen : Nat)
deriving DecidableEq, Repr

/-- The operations of the FIFO alone, where a direct `Drain` is allowed (R140, R146, U14; log 12). -/
inductive FifoOp where
  /-- `Push(b)` (R141, R142). -/
  | push (b : Byte)
  /-- `Drain(max_len)` (R145). -/
  | drain (maxLen : Nat)
deriving DecidableEq, Repr

/-- One step the environment asks for (R70, R295): a port operation from a context, or a power-up,
which is a reset (R335, R340; log 17). -/
inductive Event where
  | call (ctx : Context) (op : PortOp)
  | powerUp
deriving DecidableEq, Repr

/-- What a port operation returned to its caller (R145, R240, R242). -/
inductive PortResult where
  | nothing
  /-- `RegGet`: the value read (R240). -/
  | value (v : Word)
  /-- `RegSet`: whether a value changed (R242). -/
  | changed (b : Bool)
  /-- `Drain` of the FIFO alone: the bytes taken (R145). -/
  | bytes (s : List Byte)
deriving DecidableEq, Repr

/-- The state of the machine: everything R20 gives the block, then three fields of the model's own
(`now`, `result`, `pending`; log 4, 7, 11). -/
structure State where
  /-- The stored-register table (R21). -/
  x : Regs
  /-- `fifo.buf`, indices 0 to 511 (R24). -/
  fifoBuf : Memory
  /-- `fifo.wr` (R25). -/
  fifoWr : Cursor
  /-- `fifo.rd` (R25). -/
  fifoRd : Cursor
  /-- `fifo.overflow` (R26). -/
  overflow : Bool
  /-- `asm`, offsets 0 to `ASM_CAP - 1` (R28). -/
  asm : Memory
  /-- `asm_len`, within its bounds in every state (R28; log 14); read through `State.asmLen`. -/
  asmCount : AsmLen
  /-- `last_activity` (R29). -/
  lastActivity : Tick
  /-- The decoder phase (R30). -/
  phase : Phase
  /-- `tx` and `act` since reset, in the order they were emitted (R36, R37, R221). -/
  out : List Output
  /-- The tick value the latest `Poll` sampled (the model's own). -/
  now : Tick
  /-- What the latest `RegGet`, `RegSet` or, in the FIFO alone, `Drain` returned (the model's own). -/
  result : PortResult
  /-- The steps asked for and not yet taken, oldest first (the model's own; R75). -/
  pending : List Event
deriving DecidableEq, Repr

/-- Why the machine stops with a fault: for no reason. Nothing the block meets is fatal (R300), and no
state holds more than `ASM_CAP` assembled bytes (R28, R162), so the type has no constructor. -/
inductive Fault where
deriving DecidableEq, Repr

/-- Why the machine refuses a step. -/
inductive Refusal where
  /-- An instruction that has no meaning yet, by its mnemonic in spec/opcode_table.json: raised by
  no arm of `exec` in this package. Safe. -/
  | notModelled (mnemonic : String)
  /-- Raised by `step` for a port operation called from the other context: "the source gives them
  no meaning and a model refuses them" (R150, U3). Safe: the model stops where the hardware could
  tear a cursor (log 13). -/
  | wrongContext
  /-- Raised by `step` for a `Drain` the environment asks of the whole block: "`refuse` in a model of
  the whole block (the only `Drain` is the one inside `Poll`)" (U14, R146). Safe: the model stops
  where R70 would let the caller take bytes from the decoder (log 12). -/
  | directDrain
deriving DecidableEq, Repr

/-- `asm_len` as the natural number the rules count with (R28, R292). -/
def State.asmLen (s : State) : Nat :=
  s.asmCount.val

/-- `asm_len` as the word of `ceil(log2(ASM_CAP + 1))` bits that holds it (R28). -/
def State.asmLenWord (s : State) : BitVec Config.asmLenBits :=
  BitVec.ofNat Config.asmLenBits s.asmLen

/-- The byte of an output that belongs to `tx` (R36). -/
def Output.txPart : Output → Option Byte
  | .byte b => some b
  | .action _ => none

/-- The action of an output that belongs to `act` (R37). -/
def Output.actPart : Output → Option Action
  | .byte _ => none
  | .action a => some a

/-- `tx`: the bytes handed to the transmit function, in order (R36). -/
def State.tx (s : State) : List Byte :=
  s.out.filterMap Output.txPart

/-- `act`: the collaborator invocations, in order (R37). -/
def State.act (s : State) : List Action :=
  s.out.filterMap Output.actPart

/-- The machine right after reset (R39, R340): registers 0, FIFO and assembly buffer empty, flag
clear, `last_activity` 0, phase `Accumulating`, nothing emitted (R341). The model's own fields are
0, nothing and empty (log 7). -/
def State.reset : State where
  x := { heatStatus := 0, heatLevel := 0, heatTimer := 0, shortcut1 := 0, shortcut2 := 0 }
  fifoBuf := []
  fifoWr := 0
  fifoRd := 0
  overflow := false
  asm := []
  asmCount := AsmLen.zero
  lastActivity := 0
  phase := .accumulating
  out := []
  now := 0
  result := .nothing
  pending := []

/-! ## Updates, one per piece of state an operation writes -/

/-- The register table replaced. -/
def State.withX (s : State) (x : Regs) : State :=
  { s with x := x }

/-- The producer side of the FIFO replaced. -/
def State.withFifoIn (s : State) (buf : Memory) (wr : Cursor) : State :=
  { s with fifoBuf := buf, fifoWr := wr }

/-- The read cursor replaced. -/
def State.withFifoRd (s : State) (rd : Cursor) : State :=
  { s with fifoRd := rd }

/-- The overflow flag replaced. -/
def State.withOverflow (s : State) (b : Bool) : State :=
  { s with overflow := b }

/-- The assembly buffer and its length replaced. -/
def State.withAsm (s : State) (m : Memory) (len : AsmLen) : State :=
  { s with asm := m, asmCount := len }

/-- `last_activity` replaced. -/
def State.withActivity (s : State) (t : Tick) : State :=
  { s with lastActivity := t }

/-- `phase <- ph` (R12). -/
def State.withPhase (s : State) (ph : Phase) : State :=
  { s with phase := ph }

/-- The sampled tick replaced. -/
def State.withNow (s : State) (t : Tick) : State :=
  { s with now := t }

/-- The result of a port operation. -/
def State.withResult (s : State) (r : PortResult) : State :=
  { s with result := r }

/-- The list of events to come replaced. -/
def State.withPending (s : State) (es : List Event) : State :=
  { s with pending := es }

/-- Outputs emitted after all earlier ones (R36, R37). -/
def State.append (s : State) (os : List Output) : State :=
  { s with out := s.out ++ os }

end Sys2Proof.Machine
end

