-- ==== Sys2Proof/Machine/Ops.lean ====
section
/-! DEFINITION. The named operations every meaning is built from: byte memories, outputs, the register
table, the FIFO count, the assembly buffer, and taking a frame error (R175, R316) with the return
from it (R317). -/

namespace Sys2Proof.Machine

/-! ## Byte memories (R12, R24, R28) -/

/-- The byte at an address; `memDefault` where nothing is listed. -/
def memRead : Memory → Nat → Byte
  | [], _ => memDefault
  | (a', b') :: rest, a => if a = a' then b' else memRead rest a

/-- The memory with one byte stored, in canonical form: storing `memDefault` removes the entry. -/
def memWrite : Memory → Nat → Byte → Memory
  | [], a, b => if b = memDefault then [] else [(a, b)]
  | (a', b') :: rest, a, b =>
    if a < a' then
      if b = memDefault then (a', b') :: rest else (a, b) :: (a', b') :: rest
    else if a = a' then
      if b = memDefault then rest else (a, b) :: rest
    else (a', b') :: memWrite rest a b

/-- `MemRead(space, a, n)` (R12). -/
def memReadN (m : Memory) (a n : Nat) : List Byte :=
  (List.range n).map fun k => memRead m (a + k)

/-- `MemWrite(space, a, n, v)` with `n = len(v)` (R12). -/
def memWriteN (m : Memory) (a : Nat) : List Byte → Memory
  | [] => m
  | b :: bs => memWriteN (memWrite m a b) (a + 1) bs

/-- The canonical form: addresses strictly rising, and no entry equal to what an unlisted address
reads as. -/
def Memory.wf : Memory → Bool
  | [] => true
  | [(_, b)] => b != memDefault
  | (a, b) :: (a', b') :: rest =>
    b != memDefault && decide (a < a') && Memory.wf ((a', b') :: rest)

/-- Every listed address lies below `n`. -/
def Memory.below (n : Nat) (m : Memory) : Bool :=
  m.all fun c => decide (c.1 < n)

/-! ## Outputs (R12, R36, R37) -/

/-- `Tx(s)`: the bytes appended to the transmit stream (R12, R36). -/
def txBytes (bs : List Byte) (s : State) : State :=
  s.append (bs.map .byte)

/-- `emit A(args)` for each action in turn (R12, R37). -/
def emitAll (as : List Action) (s : State) : State :=
  s.append (as.map .action)

/-- `emit A(args)` (R12, R37). -/
def emit (a : Action) (s : State) : State :=
  emitAll [a] s

/-! ## The register table (R21, R23) -/

/-- The value of an id: the slot of a stored register; the write-triggered ids have none and read 0
(R23, R31). -/
def Regs.get (x : Regs) : RegId → Word
  | .unassigned0 => 0
  | .powerOff => 0
  | .setAlarm => 0
  | .deleteAlarm => 0
  | .execShortcut => 0
  | .setUtc => 0
  | .unassigned6 => 0
  | .heatStatus => x.heatStatus
  | .heatLevel => x.heatLevel
  | .heatTimer => x.heatTimer
  | .shortcut1 => x.shortcut1
  | .shortcut2 => x.shortcut2

/-- The table with a slot replaced; an id without a slot stores nothing (R23, R31). -/
def Regs.set (x : Regs) (r : RegId) (v : Word) : Regs :=
  match r with
  | .unassigned0 => x
  | .powerOff => x
  | .setAlarm => x
  | .deleteAlarm => x
  | .execShortcut => x
  | .setUtc => x
  | .unassigned6 => x
  | .heatStatus => { x with heatStatus := v }
  | .heatLevel => { x with heatLevel := v }
  | .heatTimer => { x with heatTimer := v }
  | .shortcut1 => { x with shortcut1 := v }
  | .shortcut2 => { x with shortcut2 := v }

/-- The value read at a register address, as a natural; undefined ids read 0 (R23, R240). -/
def Regs.at (x : Regs) (id : Nat) : Word :=
  match RegId.ofNum id with
  | some r => x.get r
  | none => 0

/-! ## The FIFO's count and slots (R25) -/

/-- The slot a cursor points at: `cursor mod FIFO_CAP` (R25). -/
def slotOf (cursor : Nat) : Nat :=
  cursor % Config.fifoCap

/-- `fifo.count = (fifo.wr - fifo.rd) mod (2 * FIFO_CAP)` (R25). -/
def fifoCount (s : State) : Nat :=
  (s.fifoWr - s.fifoRd).toNat

/-- The `n` oldest bytes held, oldest first (R25, R145). -/
def fifoOldest (s : State) (n : Nat) : List Byte :=
  (List.range n).map fun k => memRead s.fifoBuf (slotOf (s.fifoRd.toNat + k))

/-- The abstract queue `fifo.q` (R25). -/
def fifoQueue (s : State) : List Byte :=
  fifoOldest s (fifoCount s)

/-! ## The assembly buffer (R28) -/

/-- The valid bytes `asm[0 .. asm_len)` (R28). -/
def asmBytes (s : State) : List Byte :=
  memReadN s.asm 0 s.asmLen

/-- The room left, `ASM_CAP - asm_len` (R160, R161). -/
def asmRoom (s : State) : Nat :=
  Config.asmCap - s.asmLen

/-- Bytes appended after the valid ones (R160, R161). No more than the room left is asked for (R162);
of more, those that fit are kept (log 14). -/
def asmAppend (bs : List Byte) (s : State) : State :=
  let kept := bs.take (asmRoom s)
  s.withAsm (memWriteN s.asm s.asmLen kept)
    ⟨s.asmLen + kept.length, by
      have := s.asmCount.isLt
      simp only [kept, asmRoom, State.asmLen, List.length_take]
      omega⟩

/-- The first `k` bytes removed: the rest moves to offset 0 (R160, R175). -/
def asmDrop (k : Nat) (s : State) : State :=
  s.withAsm (memWriteN s.asm 0 ((asmBytes s).drop k))
    ⟨s.asmLen - k, Nat.lt_of_le_of_lt (Nat.sub_le _ _) s.asmCount.isLt⟩

/-- Every byte removed (R175, R177). -/
def asmClear (s : State) : State :=
  s.withAsm s.asm AsmLen.zero

/-! ## Taking a frame error and returning from it (R175 to R177, R301, R316, R317) -/

/-- The offset of the first `MARKER` in `bs`. -/
def firstMarker : List Byte → Option Nat
  | [] => none
  | b :: bs => if b = Config.marker then some 0 else (firstMarker bs).map (· + 1)

/-- The least `k` with `1 <= k < len` and byte `k` equal to `MARKER` (R175). -/
def nextMarker (bs : List Byte) : Option Nat :=
  (firstMarker (bs.drop 1)).map (· + 1)

/-- The no-marker case (R177): every byte discarded, echoed first where the echo is on. -/
def discardAll (echo : Bool) (s : State) : State :=
  asmClear (if echo then txBytes (asmBytes s) s else s)

/-- `ResyncProc(now)` (R175): realign on the next marker and restart the timeout clock (R176), or
discard everything (R177). -/
def resyncProc (p : Params) (s : State) : State :=
  match nextMarker (asmBytes s) with
  | some k => (asmDrop k s).withActivity s.now
  | none => discardAll p.echoDiscard s

/-- The end of a decode attempt: `phase <- Accumulating` (R160, R317). -/
def returnToAccumulating (s : State) : State :=
  s.withPhase .accumulating

/-- Taking a frame error (R175, R316): nothing is saved, nothing is recorded, and no rule looks at
which error it is (R171, R301); control goes to the Resync procedure and then returns (R317). -/
def takeFrameError (p : Params) (_kind : FrameError) (s : State) : State :=
  returnToAccumulating (resyncProc p (s.withPhase .resync))

/-- Taking an invalid request (R204, R212, R307): nothing happens and nothing is recorded. -/
def takeInvalidRequest (s : State) : State := s

end Sys2Proof.Machine
end

