-- ==== Sys2Proof/Machine/Operands.lean ====
section
/-! DEFINITION. Operand forms: the packed records (R32, R100, R276), the values a read collects and a
write carries (R99, R205), and the validity of a request's operands (R203, R211). -/

namespace Sys2Proof.Machine

/-! ## Packed records -/

/-- `DecodeAlarm` on the two halves of the payload (R32, R216; `ALARM_LAYOUT`, U2). -/
def decodeAlarm (h0 h1 : Word) : AlarmRecord where
  minute := h0.extractLsb' 0 6
  hour := h0.extractLsb' 6 5
  alarmId := h0.extractLsb' 11 5
  enabled := h1.getLsbD 0
  repeats := h1.getLsbD 1
  weekdays := h1.extractLsb' 2 7
  ringtone := h1.extractLsb' 9 7

/-- The inverse, for a host that builds the payload (R100): the halves as sums. -/
def encodeAlarm (r : AlarmRecord) : Word × Word :=
  (BitVec.ofNat 16 (r.minute.toNat + r.hour.toNat * 64 + r.alarmId.toNat * 2048),
   BitVec.ofNat 16 (r.enabled.toNat + r.repeats.toNat * 2 + r.weekdays.toNat * 4 +
     r.ringtone.toNat * 512))

/-- The fields of a Shortcut record (R276): heat level, music id, timer minutes. The block stores the
16-bit value and never reads these; they are the environment's (R5, R276). -/
def decodeShortcut (v : Word) : BitVec 2 × BitVec 6 × BitVec 8 :=
  (v.extractLsb' 0 2, v.extractLsb' 2 6, v.extractLsb' 8 8)

/-! ## Operands of the two commands -/

/-- Read validation (R203), on naturals (R13). -/
def readValid (address count : Word) : Bool :=
  decide (1 ≤ count.toNat) && decide (Config.refThreshold ≤ address.toNat) &&
    decide (address.toNat + count.toNat ≤ Config.regEnd)

/-- Write validation (R211, R107, D16), on naturals (R13); `ll` is the payload length. DESIGN CHOICE
(log 32): a write below the threshold may carry more registers than R97's lengths of 19 and 13
bytes allow for, up to address 0, count 12, 33 bytes. -/
def writeValid (address count : Word) (ll : Nat) : Bool :=
  decide (1 ≤ count.toNat) && decide (address.toNat + count.toNat ≤ Config.regEnd) &&
    decide (ll = 2 * count.toNat) &&
    (!(decide (address.toNat = Config.idSetAlarm) || decide (address.toNat = Config.idSetUtc)) ||
      decide (4 ≤ ll))

/-- The values of `n` registers from an address up (R205, R255). -/
def registerValues (x : Regs) (address n : Nat) : List Word :=
  (List.range n).map fun k => x.at (address + k)

/-- Value `i` of a write payload, `BE16(data[2i .. 2i+2))` (R99, R213). -/
def writeValue (data : List Byte) (i : Nat) : Word :=
  be16Val (data.drop (2 * i))

/-- The clock value a set-UTC write programs: the timestamp plus the offset modulo 2^32 (R217). -/
def clockValue (ts : Word32) : Word32 :=
  ts + Config.utcOffsetS

/-- Minutes to seconds in 32 bits (R252). -/
def timerSeconds (v : Word) : Word32 :=
  v.setWidth 32 * 60#32

end Sys2Proof.Machine
end

