-- ==== Sys2Proof/Machine/RegisterBus.lean ====
section
/-! DEFINITION. The Register Bus (spec/44_register_bus.md): get, set, the side-effect dispatcher, the
upload; and the meanings of the UPLOAD row and of the twelve REG rows, each of which is what one
iteration of the write loop does for that id (R213, R215 to R219). -/

namespace Sys2Proof.Machine

/-! ## Get, dispatch, set -/

/-- `RegGet(id)` (R240). -/
def regGet (id : Word) (s : State) : Word :=
  s.x.at id.toNat

/-- The actions `Dispatch(id, v)` emits, in order, for each id of the table (R245 to R253). -/
def sideEffect (p : Params) (r : RegId) (v : Word) : List Action :=
  match r with
  | .powerOff => [.shutdown]
  | .deleteAlarm => [.deleteAlarm v]
  | .execShortcut => [.execShortcut v]
  | .heatStatus => [.setHeatingActive (decide (v ≠ 0))]
  | .heatLevel => [.setHeatingLevel v (p.tempTable v)]
  | .heatTimer => [.setHeatingTimer (timerSeconds v), .setTimeDisplay]
  | .setAlarm => []
  | .setUtc => []
  | .unassigned0 => []
  | .unassigned6 => []
  | .shortcut1 => []
  | .shortcut2 => []

/-- `Dispatch(id, v)` on any id: "Unknown ids: no-op" (R246). -/
def dispatchActions (p : Params) (id : Word) (v : Word) : List Action :=
  match RegId.ofNum id.toNat with
  | some r => sideEffect p r v
  | none => []

/-- `RegSet` changes something: the id has a slot and holds another value (R242 to R244). -/
def regSetChanges (id v : Word) (s : State) : Bool :=
  match RegId.ofNum id.toNat with
  | some r => r.stored && decide (s.x.get r ≠ v)
  | none => false

/-- `RegSet(id, v)` (R242): the store, then its dispatch; nothing where nothing changes (R243, R244).
Its Boolean result is `regSetChanges`. -/
def regSet (p : Params) (id v : Word) (s : State) : State :=
  match RegId.ofNum id.toNat with
  | some r =>
    if r.stored && decide (s.x.get r ≠ v) then
      emitAll (sideEffect p r v) (s.withX (s.x.set r v))
    else s
  | none => s

/-! ## One iteration of the write loop, by register class -/

/-- A stored register in a write: `RegSet(id, v)`, its result ignored (R215). -/
def writeStored (p : Params) (r : RegId) (v : Word) (s : State) : State :=
  regSet p (BitVec.ofNat 16 r.num) v s

/-- A sub-threshold register in a write: `Dispatch(id, v)` with no change detection and no storage
(R218, R219). -/
def writeTriggered (p : Params) (r : RegId) (v : Word) (s : State) : State :=
  emitAll (sideEffect p r v) s

/-- Set-alarm in a write (R216). -/
def writeAlarm (h0 h1 : Word) (s : State) : State :=
  emit (.setAlarm (decodeAlarm h0 h1)) s

/-- Set-UTC-time in a write (R217). -/
def writeClock (ts : Word32) (s : State) : State :=
  emit (.setClock (clockValue ts)) s

/-- The work of one iteration for an id and the payload from `data[2i]` on (R213, R254). -/
def writeEntry (p : Params) (r : RegId) (data : List Byte) (s : State) : State :=
  match r with
  | .unassigned0 => writeTriggered p .unassigned0 (be16Val data) s
  | .powerOff => writeTriggered p .powerOff (be16Val data) s
  | .setAlarm => writeAlarm (be16Val data) (be16Val (data.drop 2)) s
  | .deleteAlarm => writeTriggered p .deleteAlarm (be16Val data) s
  | .execShortcut => writeTriggered p .execShortcut (be16Val data) s
  | .setUtc => writeClock (be32Val data) s
  | .unassigned6 => writeTriggered p .unassigned6 (be16Val data) s
  | .heatStatus => writeStored p .heatStatus (be16Val data) s
  | .heatLevel => writeStored p .heatLevel (be16Val data) s
  | .heatTimer => writeStored p .heatTimer (be16Val data) s
  | .shortcut1 => writeStored p .shortcut1 (be16Val data) s
  | .shortcut2 => writeStored p .shortcut2 (be16Val data) s

/-! ## The upload -/

/-- `Upload` (R255): the six values through `RegGet`, sent unsolicited; no `Ack`. -/
def upload (p : Params) (s : State) : State :=
  txBytes (sealFrame p (rdrspBody (registerValues s.x Config.uploadBase Config.uploadCount))) s

/-! ## Meanings -/

/-- UPLOAD (R255). -/
def execUpload (s : State) : Host.Outcome State Fault Refusal :=
  .next (upload Config.params s)

/-- REG.UNASSIGNED_0 (R219): no dispatcher entry, no action. -/
def execRegUnassigned0 (v : Word) (s : State) : Host.Outcome State Fault Refusal :=
  .next (writeTriggered Config.params .unassigned0 v s)

/-- REG.POWER_OFF (R218, R247): `Shutdown`; the block's own state stays (R335). -/
def execRegPowerOff (v : Word) (s : State) : Host.Outcome State Fault Refusal :=
  .next (writeTriggered Config.params .powerOff v s)

/-- REG.SET_ALARM (R216). -/
def execRegSetAlarm (h0 h1 : Word) (s : State) : Host.Outcome State Fault Refusal :=
  .next (writeAlarm h0 h1 s)

/-- REG.DELETE_ALARM (R218, R248). -/
def execRegDeleteAlarm (v : Word) (s : State) : Host.Outcome State Fault Refusal :=
  .next (writeTriggered Config.params .deleteAlarm v s)

/-- REG.EXEC_SHORTCUT (R218, R249). -/
def execRegExecShortcut (v : Word) (s : State) : Host.Outcome State Fault Refusal :=
  .next (writeTriggered Config.params .execShortcut v s)

/-- REG.SET_UTC (R217). -/
def execRegSetUtc (ts : Word32) (s : State) : Host.Outcome State Fault Refusal :=
  .next (writeClock ts s)

/-- REG.UNASSIGNED_6 (R219): no dispatcher entry, no action. -/
def execRegUnassigned6 (v : Word) (s : State) : Host.Outcome State Fault Refusal :=
  .next (writeTriggered Config.params .unassigned6 v s)

/-- REG.HEAT_STATUS (R215, R250). -/
def execRegHeatStatus (v : Word) (s : State) : Host.Outcome State Fault Refusal :=
  .next (writeStored Config.params .heatStatus v s)

/-- REG.HEAT_LEVEL (R215, R251). -/
def execRegHeatLevel (v : Word) (s : State) : Host.Outcome State Fault Refusal :=
  .next (writeStored Config.params .heatLevel v s)

/-- REG.HEAT_TIMER (R215, R252). -/
def execRegHeatTimer (v : Word) (s : State) : Host.Outcome State Fault Refusal :=
  .next (writeStored Config.params .heatTimer v s)

/-- REG.SHORTCUT_1 (R215, R253). -/
def execRegShortcut1 (v : Word) (s : State) : Host.Outcome State Fault Refusal :=
  .next (writeStored Config.params .shortcut1 v s)

/-- REG.SHORTCUT_2 (R215, R253). -/
def execRegShortcut2 (v : Word) (s : State) : Host.Outcome State Fault Refusal :=
  .next (writeStored Config.params .shortcut2 v s)

end Sys2Proof.Machine
end

