-- ==== Sys2Proof/Machine/Commands.lean ====
section
/-! DEFINITION. The read and write commands (spec/43_commands.md) and the transmission of the two
response frames: the meanings of RDREQ, WRREQ, RDRSP and WRRSP. -/

namespace Sys2Proof.Machine

/-! ## Responses -/

/-- A read response transmitted (R93, R205). -/
def sendReadResponse (p : Params) (values : List Word) (s : State) : State :=
  txBytes (sealFrame p (rdrspBody values)) s

/-- A write response transmitted: the first six bytes of the request and a fresh checksum (R95,
R220). -/
def sendWriteResponse (p : Params) (address count : Word) (s : State) : State :=
  txBytes (sealFrame p (wrrspBody address count)) s

/-! ## The read command -/

/-- The read command (R203 to R206): a valid one answers and acknowledges, an invalid one does
nothing. -/
def readCommand (p : Params) (address count : Word) (s : State) : State :=
  if readValid address count then
    emit .ack (sendReadResponse p (registerValues s.x address.toNat count.toNat) s)
  else takeInvalidRequest s

/-! ## The write command -/

/-- The loop of R213 from register `id` on, `n` iterations at most: it goes on after a stored
register and stops after a sub-threshold one (R214, R297). A valid write meets no undefined id
(R211). -/
def writeLoop (p : Params) : Nat → Nat → List Byte → State → State
  | 0, _, _, s => s
  | n + 1, id, data, s =>
    match RegId.ofNum id with
    | some r =>
      if r.stored then writeLoop p n (id + 1) (data.drop 2) (writeEntry p r data s)
      else writeEntry p r data s
    | none => s

/-- The write command (R211 to R222): the loop, then the response, then `Ack` (R221); an invalid one
does nothing (R212). -/
def writeCommand (p : Params) (address count : Word) (data : List Byte) (s : State) : State :=
  if writeValid address count data.length then
    emit .ack (sendWriteResponse p address count (writeLoop p count.toNat address.toNat data s))
  else takeInvalidRequest s

/-! ## Meanings -/

/-- RDREQ (R201 to R206). -/
def execRdreq (address count : Word) (s : State) : Host.Outcome State Fault Refusal :=
  .next (readCommand Config.params address count s)

/-- WRREQ (R210 to R222). -/
def execWrreq (address count : Word) (data : List Byte) (s : State) :
    Host.Outcome State Fault Refusal :=
  .next (writeCommand Config.params address count data s)

/-- RDRSP, block to host (R93, R205): the frame is transmitted (log 19). -/
def execRdrsp (values : List Word) (s : State) : Host.Outcome State Fault Refusal :=
  .next (sendReadResponse Config.params values s)

/-- WRRSP, block to host (R95, R220): the frame is transmitted (log 19). -/
def execWrrsp (address count : Word) (s : State) : Host.Outcome State Fault Refusal :=
  .next (sendWriteResponse Config.params address count s)

end Sys2Proof.Machine
end

