-- ==== Sys2Proof/Machine/Dispatch.lean ====
section
/-! DEFINITION. One arm per instruction. -/

namespace Sys2Proof.Machine

def exec (i : Instr) (s : State) : Host.Outcome State Fault Refusal :=
  match i with
  -- requests (R200)
  | .rdreq address count => Sys2Proof.Machine.execRdreq address count s
  | .wrreq address count data => Sys2Proof.Machine.execWrreq address count data s
  -- responses and the upload
  | .rdrsp values => Sys2Proof.Machine.execRdrsp values s
  | .wrrsp address count => Sys2Proof.Machine.execWrrsp address count s
  | .upload => Sys2Proof.Machine.execUpload s
  -- register entries of a write
  | .regUnassigned0 v => Sys2Proof.Machine.execRegUnassigned0 v s
  | .regPowerOff v => Sys2Proof.Machine.execRegPowerOff v s
  | .regSetAlarm h0 h1 => Sys2Proof.Machine.execRegSetAlarm h0 h1 s
  | .regDeleteAlarm v => Sys2Proof.Machine.execRegDeleteAlarm v s
  | .regExecShortcut v => Sys2Proof.Machine.execRegExecShortcut v s
  | .regSetUtc ts => Sys2Proof.Machine.execRegSetUtc ts s
  | .regUnassigned6 v => Sys2Proof.Machine.execRegUnassigned6 v s
  | .regHeatStatus v => Sys2Proof.Machine.execRegHeatStatus v s
  | .regHeatLevel v => Sys2Proof.Machine.execRegHeatLevel v s
  | .regHeatTimer v => Sys2Proof.Machine.execRegHeatTimer v s
  | .regShortcut1 v => Sys2Proof.Machine.execRegShortcut1 v s
  | .regShortcut2 v => Sys2Proof.Machine.execRegShortcut2 v s

end Sys2Proof.Machine
end

