-- ==== Sys2Proof/Machine/Flags.lean ====
section
/-! DEFINITION. The one status flag of the block (R26, R144) and the conditions of the ready test
(R163). -/

namespace Sys2Proof.Machine

/-- The ring is full (R142). A count above `FIFO_CAP` is in no reachable state (R25) and counts as
full (log 15). -/
def fifoFull (s : State) : Bool :=
  decide (Config.fifoCap ≤ fifoCount s)

/-- `fifo.overflow` after a `Push`: set by a dropped byte, cleared by an accepted one (R141, R142,
R144). -/
def overflowAfterPush (s : State) : Bool :=
  fifoFull s

/-- `elapsed = (now - last_activity) mod 2^TICK_W` (R163, R164). -/
def elapsed (s : State) : Tick :=
  s.now - s.lastActivity

/-- `timed_out`: at least `TIMEOUT_MS` elapsed, compared unsigned (R160, R163). -/
def timedOut (s : State) : Bool :=
  decide (Config.timeoutMs ≤ (elapsed s).toNat)

/-- `full`: `asm_len = ASM_CAP` (R160, R163). -/
def asmFull (s : State) : Bool :=
  decide (s.asmLen = Config.asmCap)

/-- The ready test (R163): something pending, and the buffer full or the timeout passed. -/
def ready (s : State) : Bool :=
  decide (s.asmLen ≠ 0) && (timedOut s || asmFull s)

end Sys2Proof.Machine
end

