-- ==== Sys2Proof/Machine/Fifo.lean ====
section
/-! DEFINITION. The Byte Ingestion Buffer (spec/41_fifo.md). -/

namespace Sys2Proof.Machine

/-- `Push(b)` (R141, R142): into a full ring the byte is dropped; otherwise it is stored at the write
cursor, which advances modulo 1024. -/
def push (b : Byte) (s : State) : State :=
  (if fifoFull s then s
   else s.withFifoIn (memWrite s.fifoBuf (slotOf s.fifoWr.toNat) b) (s.fifoWr + 1)).withOverflow
    (overflowAfterPush s)

/-- How many bytes a `Drain(max_len)` takes (R145). -/
def drainCount (maxLen : Nat) (s : State) : Nat :=
  min maxLen (fifoCount s)

/-- The bytes a `Drain(max_len)` returns, in FIFO order and across the end of the array (R145, R147). -/
def drainBytes (maxLen : Nat) (s : State) : List Byte :=
  fifoOldest s (drainCount maxLen s)

/-- The state a `Drain(max_len)` leaves: the read cursor advanced modulo 1024, nothing else (R145,
R146). -/
def drain (maxLen : Nat) (s : State) : State :=
  s.withFifoRd (s.fifoRd + BitVec.ofNat 10 (drainCount maxLen s))

/-! ## The FIFO alone (U14; log 12) -/

/-- One atomic step of the FIFO alone (R70, R149). Here a direct `Drain` is allowed and answers its
bytes (R145, R146, U14); the whole block's `step` refuses it. -/
def fifoStep (op : FifoOp) (s : State) : State :=
  match op with
  | .push b => push b s
  | .drain maxLen => (drain maxLen s).withResult (.bytes (drainBytes maxLen s))

/-- The steps of the FIFO alone, oldest first (R75). -/
def runFifo : List FifoOp → State → State
  | [], s => s
  | op :: ops, s => runFifo ops (fifoStep op s)

end Sys2Proof.Machine
end

