-- ==== Sys2Proof/Machine/Poll.lean ====
section
/-! DEFINITION. The Frame Decoder (spec/42_frame_decoder.md): the poll step, the fetch of the frame at
`asm[0]`, its execution and removal; and the placing of a table word where the fetch finds it. -/

namespace Sys2Proof.Machine

/-! ## Part 1 of a poll: drain (R161) -/

/-- The drain of a poll: one `Drain` of the room left, its bytes appended, `last_activity`
refreshed if and only if a byte came (R160, R161). -/
def pollDrain (now : Tick) (s : State) : State :=
  let bytes := drainBytes (asmRoom s) s
  (asmAppend bytes ((drain (asmRoom s) s).withNow now)).withActivity
    (if bytes.isEmpty then s.lastActivity else now)

/-! ## Part 3: one decode attempt -/

/-- The frame of length `len` removed after its execution; where bytes remain they wait a fresh
timeout (R160, R172); then `phase <- Accumulating`. -/
def retire (len : Nat) (s : State) : State :=
  returnToAccumulating ((asmDrop len s).withActivity
    (if s.asmLen - len = 0 then s.lastActivity else s.now))

/-- Phase `Validated` (R296): the frame at `asm[0]` is fetched, executed and removed. The checksum is
no longer looked at. In a state whose buffer holds no whole request, which no poll enters, the
frame error is taken (log 16). -/
def runValidated (s : State) : Host.Outcome State Fault Refusal :=
  match decode (asmBytes s) with
  | .ok (i, len) =>
    match exec i s with
    | .next s' => .next (retire len s')
    | .fault r => .fault r
    | .refused r => .refused r
  | .error e => .next (takeFrameError Config.params e s)

/-- What is left of a poll from the phase the machine is in (R160, R296). -/
def decodeAttempt (s : State) : Host.Outcome State Fault Refusal :=
  match s.phase with
  | .accumulating => .next s
  | .frameReady =>
    match parse Config.params (asmBytes s) with
    | .ok _ => runValidated (s.withPhase .validated)
    | .error e => .next (takeFrameError Config.params e s)
  | .validated => runValidated s
  | .resync => .next (returnToAccumulating (resyncProc Config.params s))

/-- `Poll(now)` (R160): drain, ready test, at most one decode attempt (R174). -/
def poll (now : Tick) (s : State) : Host.Outcome State Fault Refusal :=
  let s' := pollDrain now s
  if ready s' then decodeAttempt (s'.withPhase .frameReady) else .next s'

/-! ## Placing a table word (log 5) -/

/-- The frame by which the block meets a table word: a word that heads a frame is that frame, of the
length its own bytes declare; a register address is the shortest valid write of that register, with
a payload of the bytes that follow it (R102, R211), because only a write command selects a register
entry. The checksum field is whatever stands there: phase `Validated` is past it. -/
def tableFrame (nbits w : Nat) : List Byte :=
  let bytes := tableBytes nbits w
  if bytes.getD 0 0 = Config.marker then
    match decode bytes with
    | .ok (_, len) => bytes.take len
    | .error _ => bytes.take Config.asmCapMin
  else
    let id := be16Val bytes
    let n := if id.toNat = Config.idSetAlarm ∨ id.toNat = Config.idSetUtc then 2 else 1
    wrrspBody id (BitVec.ofNat 16 n) ++ [BitVec.ofNat 8 (2 * n)] ++ (bytes.drop 2).take (2 * n) ++
      be16 0

/-- The state with the word's frame at `asm[0]`, validated and next to be executed: the next step
fetches exactly it. Of a frame longer than `ASM_CAP` the first `ASM_CAP` bytes are there, as on the
link (R169, U15; log 14). -/
def placeTableWord (nbits w : Nat) (s : State) : State :=
  (asmAppend (tableFrame nbits w) (asmClear s)).withPhase .validated

end Sys2Proof.Machine
end

