-- ==== Sys2Proof/Machine/Ports.lean ====
section
/-! DEFINITION. The steps the environment asks for (R70, R113): the port operations, each with the
context it belongs to (R320), and power-up (R340). -/

namespace Sys2Proof.Machine

/-- The context an operation may be called from: `Push` from the interrupt, everything else from the
poll context (R143, R320, R350). -/
def contextOf : PortOp → Context
  | .push _ => .interrupt
  | .poll _ => .poll
  | .upload => .poll
  | .regGet _ => .poll
  | .regSet _ _ => .poll
  | .drain _ => .poll

/-- One port operation, whole (R70). A direct `Drain` is none of the block's ports (R270): the only
`Drain` of the block is the one inside `Poll` (R146, R161), and another is refused (U14; log 12). -/
def runOp (op : PortOp) (s : State) : Host.Outcome State Fault Refusal :=
  match op with
  | .push b => .next (push b s)
  | .poll now => poll now s
  | .upload => exec .upload s
  | .regGet id => .next (s.withResult (.value (regGet id s)))
  | .regSet id v => .next ((regSet Config.params id v s).withResult (.changed (regSetChanges id v s)))
  | .drain _ => .refused .directDrain

/-- One event: an operation from its own context; from the other one it is refused (R150, U3). A
power-up is a reset (R335, R340), and the events after it still come. -/
def runEvent (e : Event) (s : State) : Host.Outcome State Fault Refusal :=
  match e with
  | .call ctx op => if ctx = contextOf op then runOp op s else .refused .wrongContext
  | .powerUp => .next (State.reset.withPending s.pending)

/-- The machine between polls takes the oldest event; with none it stays as it is: "the block starts
idle and does nothing until a step is applied to it" (R340). -/
def nextEvent (s : State) : Host.Outcome State Fault Refusal :=
  match s.pending with
  | [] => .next s
  | e :: rest => runEvent e (s.withPending rest)

end Sys2Proof.Machine
end

