-- ==== Sys2Proof/Machine/Step.lean ====
section
/-! DEFINITION. One step of the machine (R70, R295), and where a table word is placed. -/

namespace Sys2Proof.Machine

/-- One step. Between polls the environment's next event is taken. In any other phase, where a poll
never leaves the machine (R30), the poll in progress is finished first (R296; log 16). -/
def step (s : State) : Host.Outcome State Fault Refusal :=
  match s.phase with
  | .accumulating => nextEvent s
  | .frameReady => decodeAttempt s
  | .validated => decodeAttempt s
  | .resync => decodeAttempt s

/-- The state in which the next step fetches the table word (log 5). -/
def State.withFetchWord (s : State) (nbits w : Nat) : State :=
  placeTableWord nbits w s

end Sys2Proof.Machine
end

