-- ==== Sys2Proof/Safety.lean ====
section
/-! DEFINITION. The terms the statements use: which states the block can be in, which schedules keep
the context discipline, and what it means that a step leaves everything but the outputs alone. -/

namespace Sys2Proof.Machine

/-- The states of the block (R25, R28, R30): both memories in canonical form and inside their address
spaces (R34), at most `FIFO_CAP` bytes held (R25), at most `ASM_CAP` bytes assembled (R28), and no
poll in progress (R30). -/
structure State.Inv (s : State) : Prop where
  fifo_wf : Memory.wf s.fifoBuf = true
  fifo_below : Memory.below Config.fifoCap s.fifoBuf = true
  fifo_count : fifoCount s ≤ Config.fifoCap
  asm_wf : Memory.wf s.asm = true
  asm_below : Memory.below Config.asmCap s.asm = true
  asm_len : s.asmLen ≤ Config.asmCap
  phase_idle : s.phase = .accumulating

/-- The operation is an input or a callable port of the whole block (R270): every one but a direct
`Drain` (R146, U14; log 12). -/
def PortOp.inBlock : PortOp → Bool
  | .push _ => true
  | .poll _ => true
  | .upload => true
  | .regGet _ => true
  | .regSet _ _ => true
  | .drain _ => false

/-- The event is one the whole block accepts: a port of its own (R270), called from its own context
(R320, R350), or a power-up. -/
def Event.legal : Event → Bool
  | .call ctx op => decide (ctx = contextOf op) && op.inBlock
  | .powerUp => true

/-- The event is the machine's next one: no poll in progress and the event oldest (R70, R295). -/
def State.takes (s : State) (e : Event) (rest : List Event) : Prop :=
  s.phase = .accumulating ∧ s.pending = e :: rest

/-- The state after the drain of a poll at `t`, before its ready test (R160, R161). -/
def State.drained (s : State) (t : Tick) : State :=
  pollDrain t s

/-- The bytes the pushes of a schedule of the FIFO alone get accepted, in push order: those that come
while fewer than `FIFO_CAP` bytes are held (R141, R142). -/
def acceptedBytes : List FifoOp → State → List Byte
  | [], _ => []
  | .push b :: ops, s =>
    (if fifoCount s < Config.fifoCap then [b] else []) ++ acceptedBytes ops (fifoStep (.push b) s)
  | .drain n :: ops, s => acceptedBytes ops (fifoStep (.drain n) s)

/-- The bytes a port operation returned, if it returned bytes (R145). -/
def PortResult.toBytes : PortResult → List Byte
  | .nothing => []
  | .value _ => []
  | .changed _ => []
  | .bytes bs => bs

/-- What the drains of a schedule of the FIFO alone return, joined in their order (R145). -/
def drainedBytes : List FifoOp → State → List Byte
  | [], _ => []
  | .push b :: ops, s => drainedBytes ops (fifoStep (.push b) s)
  | .drain n :: ops, s =>
    (fifoStep (.drain n) s).result.toBytes ++ drainedBytes ops (fifoStep (.drain n) s)

/-- The conditions of a valid read, in the numbers of the default parameters (R203). -/
def readConditions (address count : Word) : Prop :=
  1 ≤ count.toNat ∧ 7 ≤ address.toNat ∧ address.toNat + count.toNat ≤ 12

/-- The conditions of a valid write with a payload of `ll` bytes, in the numbers of the default
parameters (R211). -/
def writeConditions (address count : Word) (ll : Nat) : Prop :=
  1 ≤ count.toNat ∧ address.toNat + count.toNat ≤ 12 ∧ ll = 2 * count.toNat ∧
    (address.toNat = 2 ∨ address.toNat = 5 → 4 ≤ ll)

/-- The outputs of an answered command: the frame whose bytes before the checksum are `body`, then
`Ack` (R205, R206, R221). -/
def answer (body : List Byte) : List Output :=
  (body ++ be16 (Config.params.ck body)).map .byte ++ [.action .ack]

/-- The bytes of a write response before its checksum (R95). -/
def writeAnswerBody (address count : Word) : List Byte :=
  [0x01#8, 0x10#8] ++ be16 address ++ be16 count

/-- The request is invalid: a read against R203 or a write against R211. -/
def invalidRequest (i : Instr) : Prop :=
  (∃ address count, i = .rdreq address count ∧ ¬ readConditions address count) ∨
    ∃ address count data, i = .wrreq address count data ∧
      ¬ writeConditions address count data.length

/-- The bytes of every memory read the same in both states. -/
def sameMemory (s t : State) : Prop :=
  (∀ a, memRead t.fifoBuf a = memRead s.fifoBuf a) ∧ (∀ a, memRead t.asm a = memRead s.asm a)

/-- Everything but the register table and the outputs is the same in both states: every byte of
memory, the cursors, the flag, the decoder's state, the inputs and the port result. -/
def sameButRegistersAndOutputs (s t : State) : Prop :=
  sameMemory s t ∧ t.fifoWr = s.fifoWr ∧ t.fifoRd = s.fifoRd ∧ t.overflow = s.overflow ∧
    t.asmLen = s.asmLen ∧ t.lastActivity = s.lastActivity ∧ t.phase = s.phase ∧ t.now = s.now ∧
    t.result = s.result ∧ t.pending = s.pending

end Sys2Proof.Machine

namespace Sys2Proof

/-- The instruction is one the block decodes: a request (R91, R102). -/
def Instr.isRequest : Instr → Bool
  | .rdreq _ _ => true
  | .wrreq _ _ _ => true
  | .rdrsp _ => false
  | .wrrsp _ _ => false
  | .upload => false
  | .regUnassigned0 _ => false
  | .regPowerOff _ => false
  | .regSetAlarm _ _ => false
  | .regDeleteAlarm _ => false
  | .regExecShortcut _ => false
  | .regSetUtc _ => false
  | .regUnassigned6 _ => false
  | .regHeatStatus _ => false
  | .regHeatLevel _ => false
  | .regHeatTimer _ => false
  | .regShortcut1 _ => false
  | .regShortcut2 _ => false

/-- The instruction is a response frame (R91). -/
def Instr.isResponse : Instr → Bool
  | .rdreq _ _ => false
  | .wrreq _ _ _ => false
  | .rdrsp _ => true
  | .wrrsp _ _ => true
  | .upload => false
  | .regUnassigned0 _ => false
  | .regPowerOff _ => false
  | .regSetAlarm _ _ => false
  | .regDeleteAlarm _ => false
  | .regExecShortcut _ => false
  | .regSetUtc _ => false
  | .regUnassigned6 _ => false
  | .regHeatStatus _ => false
  | .regHeatLevel _ => false
  | .regHeatTimer _ => false
  | .regShortcut1 _ => false
  | .regShortcut2 _ => false

/-- The instruction is a register entry, a row of format REGID (R102). -/
def Instr.isEntry : Instr → Bool
  | .rdreq _ _ => false
  | .wrreq _ _ _ => false
  | .rdrsp _ => false
  | .wrrsp _ _ => false
  | .upload => false
  | .regUnassigned0 _ => true
  | .regPowerOff _ => true
  | .regSetAlarm _ _ => true
  | .regDeleteAlarm _ => true
  | .regExecShortcut _ => true
  | .regSetUtc _ => true
  | .regUnassigned6 _ => true
  | .regHeatStatus _ => true
  | .regHeatLevel _ => true
  | .regHeatTimer _ => true
  | .regShortcut1 _ => true
  | .regShortcut2 _ => true

/-- The instruction may write a stored register: a write request, or the entry of a stored register
(R22, R359). -/
def Instr.mayStore : Instr → Bool
  | .rdreq _ _ => false
  | .wrreq _ _ _ => true
  | .rdrsp _ => false
  | .wrrsp _ _ => false
  | .upload => false
  | .regUnassigned0 _ => false
  | .regPowerOff _ => false
  | .regSetAlarm _ _ => false
  | .regDeleteAlarm _ => false
  | .regExecShortcut _ => false
  | .regSetUtc _ => false
  | .regUnassigned6 _ => false
  | .regHeatStatus _ => true
  | .regHeatLevel _ => true
  | .regHeatTimer _ => true
  | .regShortcut1 _ => true
  | .regShortcut2 _ => true

end Sys2Proof
end

