-- ==== Sys2Proof/Certificates/Slice0/Obligations.lean ====
section
/-! DEFINITION. The statements about the machine, each with the rule of spec/ it formalises. -/

open Sys2Proof Sys2Proof.Machine

/-! ## Register entries: the REG rows (R216 to R219, R245 to R253) -/

/-- R247; that the entry alone is its dispatch, with no response and no `Ack`, is the model's reading
(log 20): the power-off entry emits `Shutdown` whatever its value is, and changes nothing else. -/
def Obligations.PowerOffEntryEmitsShutdown : Prop :=
  ∀ (v : Word) (s : State), exec (.regPowerOff v) s = .next (s.append [.action .shutdown])

/-- R248; that the entry alone is its dispatch, with no response and no `Ack`, is the model's reading
(log 20): the delete-alarm entry passes its full 16-bit value on, and changes nothing else. -/
def Obligations.DeleteAlarmEntryPassesItsIndex : Prop :=
  ∀ (v : Word) (s : State),
    exec (.regDeleteAlarm v) s = .next (s.append [.action (.deleteAlarm v)])

/-- R249; that the entry alone is its dispatch, with no response and no `Ack`, is the model's reading
(log 20): the execute-shortcut entry passes its value through, and changes nothing else. -/
def Obligations.ExecShortcutEntryPassesItsId : Prop :=
  ∀ (v : Word) (s : State),
    exec (.regExecShortcut v) s = .next (s.append [.action (.execShortcut v)])

/-- R219, which the spec derives from R218 and R246: the entries of ids 0 and 6, alone and so without
response or `Ack` (the model's reading, log 20), do nothing, and a valid write that starts at one of
them emits no other action than `Ack` and is answered and acknowledged like any other. That a write
of more than 19 bytes can be valid is the model's choice, R211 against R97 (log 32). -/
def Obligations.UnassignedIdsEmitNothingAndAreAnswered : Prop :=
  (∀ (v : Word) (s : State), exec (.regUnassigned0 v) s = .next s) ∧
  (∀ (v : Word) (s : State), exec (.regUnassigned6 v) s = .next s) ∧
  ∀ (address count : Word) (data : List Byte) (s : State),
    address.toNat = 0 ∨ address.toNat = 6 → writeConditions address count data.length →
    exec (.wrreq address count data) s = .next (s.append (answer (writeAnswerBody address count)))

/-- R32, R216; that a register entry alone is one iteration of the write loop, with no answer, is the
model's reading (log 20): the set-alarm entry emits the record whose fields lie in the two halves from bit 0
upward, and changes nothing else. -/
def Obligations.SetAlarmEntryDecodesTheHalves : Prop :=
  ∀ (h0 h1 : Word) (s : State), ∃ r : AlarmRecord,
    exec (.regSetAlarm h0 h1) s = .next (s.append [.action (.setAlarm r)]) ∧
    r.minute.toNat = h0.toNat % 64 ∧ r.hour.toNat = h0.toNat / 64 % 32 ∧
    r.alarmId.toNat = h0.toNat / 2048 ∧ r.enabled.toNat = h1.toNat % 2 ∧
    r.repeats.toNat = h1.toNat / 2 % 2 ∧ r.weekdays.toNat = h1.toNat / 4 % 128 ∧
    r.ringtone.toNat = h1.toNat / 512

/-- R217, for the entry alone (log 20): the set-UTC entry emits `SetClock` with 28800 added modulo 2^32, and changes nothing else. -/
def Obligations.SetUtcEntryAddsTheOffset : Prop :=
  ∀ (ts : Word32) (s : State), ∃ t : Word32,
    exec (.regSetUtc ts) s = .next (s.append [.action (.setClock t)]) ∧
    t.toNat = (ts.toNat + 28800) % 2 ^ 32

/-- R215, R250 to R253, for the entries alone (log 20): the entry of a stored register stores a changed value and then emits the
actions of its id; an unchanged value does nothing. -/
def Obligations.StoredEntriesStoreAndDispatchOnChange : Prop :=
  ∀ (v : Word) (s : State),
    exec (.regHeatStatus v) s = .next (if s.x.heatStatus = v then s
      else (s.withX { s.x with heatStatus := v }).append
        [.action (.setHeatingActive (decide (v ≠ 0)))]) ∧
    exec (.regHeatLevel v) s = .next (if s.x.heatLevel = v then s
      else (s.withX { s.x with heatLevel := v }).append
        [.action (.setHeatingLevel v (Config.params.tempTable v))]) ∧
    exec (.regHeatTimer v) s = .next (if s.x.heatTimer = v then s
      else (s.withX { s.x with heatTimer := v }).append
        [.action (.setHeatingTimer (BitVec.ofNat 32 (60 * v.toNat))), .action .setTimeDisplay]) ∧
    exec (.regShortcut1 v) s = .next (if s.x.shortcut1 = v then s
      else s.withX { s.x with shortcut1 := v }) ∧
    exec (.regShortcut2 v) s = .next (if s.x.shortcut2 = v then s
      else s.withX { s.x with shortcut2 := v })

/-- R246: the dispatcher's mapping, complete, for every 16-bit id. -/
def Obligations.DispatcherMappingIsComplete : Prop :=
  ∀ (p : Params) (id v : Word), dispatchActions p id v =
    if id.toNat = 1 then [.shutdown]
    else if id.toNat = 3 then [.deleteAlarm v]
    else if id.toNat = 4 then [.execShortcut v]
    else if id.toNat = 7 then [.setHeatingActive (decide (v ≠ 0))]
    else if id.toNat = 8 then [.setHeatingLevel v (p.tempTable v)]
    else if id.toNat = 9 then [.setHeatingTimer (BitVec.ofNat 32 (60 * v.toNat)), .setTimeDisplay]
    else []

/-! ## The register ports (R240 to R244) -/

/-- R240: `RegGet` answers the stored value, and 0 for every id without a slot; it changes nothing. -/
def Obligations.RegGetAnswersStoredValueOrZero : Prop :=
  ∀ (id : Word) (s : State) (rest : List Event), s.takes (.call .poll (.regGet id)) rest →
    step s = .next ((s.withPending rest).withResult (.value
      (if id.toNat = 7 then s.x.heatStatus else if id.toNat = 8 then s.x.heatLevel
       else if id.toNat = 9 then s.x.heatTimer else if id.toNat = 10 then s.x.shortcut1
       else if id.toNat = 11 then s.x.shortcut2 else 0)))

/-- R242: `RegSet` of a stored register that holds another value stores it, then emits the actions of
the dispatcher, and answers true; in every other case it changes nothing and answers false. -/
def Obligations.RegSetStoresThenDispatchesOnChange : Prop :=
  ∀ (id v : Word) (s : State) (rest : List Event), s.takes (.call .poll (.regSet id v)) rest →
    (∀ r : RegId, r.num = id.toNat → 7 ≤ id.toNat → s.x.get r ≠ v →
      step s = .next ((((s.withPending rest).withX (s.x.set r v)).append
        ((dispatchActions Config.params id v).map .action)).withResult (.changed true))) ∧
    ((∀ r : RegId, r.num = id.toNat → 7 ≤ id.toNat → s.x.get r = v) →
      step s = .next ((s.withPending rest).withResult (.changed false)))

/-- R244: `RegSet` of an id outside 7 to 11 answers false and does nothing. -/
def Obligations.RegSetOutOfRangeDoesNothing : Prop :=
  ∀ (id v : Word) (s : State) (rest : List Event), s.takes (.call .poll (.regSet id v)) rest →
    id.toNat < 7 ∨ 12 ≤ id.toNat →
    step s = .next ((s.withPending rest).withResult (.changed false))

/-- R243: setting a register to the value it holds changes nothing, emits nothing and answers false;
so a second `RegSet` with the same value does nothing, whatever the first one did. -/
def Obligations.RegSetAgainDispatchesNothing : Prop :=
  (∀ (id : Word) (s : State) (rest : List Event),
    s.takes (.call .poll (.regSet id (s.x.at id.toNat))) rest →
    step s = .next ((s.withPending rest).withResult (.changed false))) ∧
  ∀ (id v : Word) (s : State) (rest : List Event),
    s.takes (.call .poll (.regSet id v)) (.call .poll (.regSet id v) :: rest) →
    ∃ t, step s = .next t ∧
      step t = .next ((t.withPending rest).withResult (.changed false))

/-- R22: a stored register reads back the value last written, unmasked. -/
def Obligations.StoredRegisterReadsBackVerbatim : Prop :=
  ∀ (id v : Word) (s : State) (rest : List Event), 7 ≤ id.toNat → id.toNat < 12 →
    s.takes (.call .poll (.regSet id v)) (.call .poll (.regGet id) :: rest) →
    ∃ t u, step s = .next t ∧ step t = .next u ∧ u.result = .value v ∧ u.x = t.x

/-! ## The read and write commands (R200 to R222) -/

/-- R203, R205: a read is answered exactly when it is valid, with the stored values in a read
response and then `Ack`; it changes no register. An invalid one does nothing. -/
def Obligations.ReadCommandAnswersExactlyWhenValid : Prop :=
  ∀ (address count : Word) (s : State),
    (readConditions address count →
      exec (.rdreq address count) s = .next (s.append (answer
        ([0x01#8, 0x03#8, BitVec.ofNat 8 (2 * count.toNat)] ++
          (List.range count.toNat).flatMap fun k => be16 (s.x.at (address.toNat + k)))))) ∧
    (¬ readConditions address count → exec (.rdreq address count) s = .next s)

/-- R211: a write that fails validation changes nothing. -/
def Obligations.InvalidWriteChangesNothing : Prop :=
  ∀ (address count : Word) (data : List Byte) (s : State),
    ¬ writeConditions address count data.length → exec (.wrreq address count data) s = .next s

/-- R215: a valid write that starts at or above the threshold sets each of its registers and no
other, emits the dispatcher's actions of the changed ones in ascending order, and is answered and
acknowledged whether or not any value changed. -/
def Obligations.ValidWriteSetsItsStoredRegisters : Prop :=
  ∀ (address count : Word) (data : List Byte) (s : State),
    writeConditions address count data.length → 7 ≤ address.toNat →
    ∃ x : Regs,
      (∀ id : Nat, x.at id = if address.toNat ≤ id ∧ id < address.toNat + count.toNat
        then be16Val (data.drop (2 * (id - address.toNat))) else s.x.at id) ∧
      exec (.wrreq address count data) s = .next ((s.withX x).append
        (((List.range count.toNat).flatMap fun i =>
          if s.x.at (address.toNat + i) = be16Val (data.drop (2 * i)) then []
          else (dispatchActions Config.params (BitVec.ofNat 16 (address.toNat + i))
            (be16Val (data.drop (2 * i)))).map .action) ++
          answer (writeAnswerBody address count)))

/-- R214, R213: a valid write that starts below the threshold runs the entry of its first register and
nothing more; the response still echoes the full count. That the entry alone is at most one action,
with no response and no `Ack`, is the model's reading (log 20); that a write of more than 19 bytes
can be valid is its choice, R211 against R97 (log 32). -/
def Obligations.WriteBelowThresholdRunsOneEntry : Prop :=
  ∀ (address count : Word) (data : List Byte) (s : State),
    writeConditions address count data.length → address.toNat < 7 →
    ∃ (e : Instr) (a : List Action), decodeEntry address.toNat data = some e ∧ a.length ≤ 1 ∧
      exec e s = .next (s.append (a.map .action)) ∧
      exec (.wrreq address count data) s =
        .next (s.append (a.map .action ++ answer (writeAnswerBody address count)))

/-- R216, R211: a set-alarm write decodes its first four payload bytes into a record, emits it, stores
nothing and is answered; with two payload bytes it is invalid. That one with a count of 3 to 10 is
valid too, where R97 gives a set-alarm write 13 bytes, is the model's choice (log 32). -/
def Obligations.SetAlarmWriteDecodesThePayload : Prop :=
  (∀ (count : Word) (b0 b1 b2 b3 : Byte) (more : List Byte) (s : State),
    more.length + 4 = 2 * count.toNat → 2 + count.toNat ≤ 12 →
    ∃ r : AlarmRecord,
      exec (.wrreq 2 count (b0 :: b1 :: b2 :: b3 :: more)) s =
        .next (s.append (.action (.setAlarm r) :: answer (writeAnswerBody 2 count))) ∧
      r.minute.toNat = (b0.toNat * 256 + b1.toNat) % 64 ∧
      r.hour.toNat = (b0.toNat * 256 + b1.toNat) / 64 % 32 ∧
      r.alarmId.toNat = (b0.toNat * 256 + b1.toNat) / 2048 ∧
      r.enabled.toNat = (b2.toNat * 256 + b3.toNat) % 2 ∧
      r.repeats.toNat = (b2.toNat * 256 + b3.toNat) / 2 % 2 ∧
      r.weekdays.toNat = (b2.toNat * 256 + b3.toNat) / 4 % 128 ∧
      r.ringtone.toNat = (b2.toNat * 256 + b3.toNat) / 512) ∧
  ∀ (b0 b1 : Byte) (s : State), exec (.wrreq 2 1 [b0, b1]) s = .next s

/-- R217, R211: a set-UTC write programs the clock with its big-endian timestamp plus 28800 modulo
2^32, stores nothing and is answered; with two payload bytes it is invalid. That one with a count of
3 to 7 is valid too, where R97 gives a set-UTC write 13 bytes, is the model's choice (log 32). -/
def Obligations.SetUtcWriteProgramsTheClock : Prop :=
  (∀ (count : Word) (b0 b1 b2 b3 : Byte) (more : List Byte) (s : State),
    more.length + 4 = 2 * count.toNat → 5 + count.toNat ≤ 12 →
    ∃ t : Word32,
      exec (.wrreq 5 count (b0 :: b1 :: b2 :: b3 :: more)) s =
        .next (s.append (.action (.setClock t) :: answer (writeAnswerBody 5 count))) ∧
      t.toNat = (b0.toNat * 2 ^ 24 + b1.toNat * 2 ^ 16 + b2.toNat * 2 ^ 8 + b3.toNat + 28800) %
        2 ^ 32) ∧
  ∀ (b0 b1 : Byte) (s : State), exec (.wrreq 5 1 [b0, b1]) s = .next s

/-- R220: every valid write sends exactly one write response, echoing address and count. That it comes
after the actions and before `Ack` is R221, the spec's own choice (D18; log 26); that a write of more
than 19 bytes can be valid is the model's choice, R211 against R97 (log 32). -/
def Obligations.ValidWriteSendsOneResponse : Prop :=
  ∀ (address count : Word) (data : List Byte) (s : State),
    writeConditions address count data.length →
    ∃ (x : Regs) (a : List Action), exec (.wrreq address count data) s =
      .next ((s.withX x).append (a.map .action ++ answer (writeAnswerBody address count)))

/-- R222: the scenario of the source. The bytes parse as a whole frame of 11 bytes, and from a state
with heating status 0 the write stores 1, makes heating active, answers and acknowledges. -/
def Obligations.ScenarioMakesHeatingActive : Prop :=
  ∀ (p : Params) (s : State), s.x.heatStatus = 0 →
    (let body : List Byte := [0x01, 0x10, 0x00, 0x07, 0x00, 0x01, 0x02, 0x00, 0x01]
     parse p (body ++ be16 (p.ck body)) = .ok (.wrreq 7 1 [0x00, 0x01], 11)) ∧
    exec (.wrreq 7 1 [0x00, 0x01]) s =
      .next ((s.withX { s.x with heatStatus := 1 }).append
        (.action (.setHeatingActive true) ::
          answer [0x01, 0x10, 0x00, 0x07, 0x00, 0x01]))

/-! ## Responses and the upload (R93, R95, R255) -/

/-- R93, R95: a response instruction transmits its frame and changes nothing else. That a response
row is executed by transmitting it is the model's reading (log 19). -/
def Obligations.ResponseFramesAreTransmitted : Prop :=
  (∀ (values : List Word) (s : State),
    let body := [0x01#8, 0x03#8, BitVec.ofNat 8 (2 * values.length)] ++ values.flatMap be16
    exec (.rdrsp values) s =
      .next (s.append ((body ++ be16 (Config.params.ck body)).map .byte))) ∧
  ∀ (address count : Word) (s : State),
    let body := writeAnswerBody address count
    exec (.wrrsp address count) s =
      .next (s.append ((body ++ be16 (Config.params.ck body)).map .byte))

/-- R255: an upload sends the five stored values and a sixth value 0 in a read-response frame, emits
no `Ack` and changes nothing else; the environment may ask for it at any time. -/
def Obligations.UploadSendsFiveRegistersAndZero : Prop :=
  ∀ s : State,
    let body := [0x01#8, 0x03#8, 0x0C#8] ++ be16 s.x.heatStatus ++ be16 s.x.heatLevel ++
      be16 s.x.heatTimer ++ be16 s.x.shortcut1 ++ be16 s.x.shortcut2 ++ [0x00#8, 0x00#8]
    let sent := (body ++ be16 (Config.params.ck body)).map Output.byte
    exec .upload s = .next (s.append sent) ∧
    ∀ rest, s.takes (.call .poll .upload) rest →
      step s = .next ((s.withPending rest).append sent)

/-! ## Encoding (R90 to R107) -/

/-- R92, R94, R169: the bytes of every well-formed request, whatever follows them, parse as that
request and its length, for every checksum function. -/
def Obligations.EncodedRequestsParseBack : Prop :=
  ∀ (p : Params) (i : Instr) (more : List Byte), i.wf = true → i.isRequest = true →
    parse p (encode p i ++ more) = .ok (i, (encode p i).length)

/-- R92, R94: whatever parses is the encoding of a well-formed request, bit for bit. -/
def Obligations.ParsedBytesAreTheEncoding : Prop :=
  ∀ (p : Params) (buf : List Byte) (i : Instr) (len : Nat), parse p buf = .ok (i, len) →
    i.wf = true ∧ i.isRequest = true ∧ len ≤ buf.length ∧ encode p i = buf.take len

/-- R93, R95: a host decodes every well-formed response frame back to its values, or to its address
and count. -/
def Obligations.EncodedResponsesDecodeBackAtTheHost : Prop :=
  ∀ (p : Params) (i : Instr), i.wf = true → i.isResponse = true →
    decodeResponse (encode p i) = some i ∧ checksumOk p (encode p i) = true

/-- R31, R99, R102: the address and payload of every register entry decode back to it. -/
def Obligations.EncodedEntriesDecodeBack : Prop :=
  ∀ (p : Params) (i : Instr), i.isEntry = true →
    decodeEntry (be16Val (encode p i)).toNat ((encode p i).drop 2) = some i

/-- One whole frame of each request, written out from R92 and R94, and five words of the opcode table
(R102, R31) decode to what they stand for. That a table word is read as a request, or else as a
register address, is the model's choice (log 6), and so are the zero bytes after it (log 5). -/
def Obligations.WrittenOutWordsDecode : Prop :=
  decodeTableWord 16 0x0103 = some (.rdreq 0 0) ∧
  decodeTableWord 16 0x0110 = some (.wrreq 0 0 []) ∧
  decodeTableWord 16 0x0002 = some (.regSetAlarm 0 0) ∧
  decodeTableWord 16 0x0007 = some (.regHeatStatus 0) ∧
  decodeTableWord 16 0x000B = some (.regShortcut2 0) ∧
  decode [0x01, 0x03, 0x00, 0x07, 0x00, 0x05, 0x08, 0x34] = .ok (.rdreq 7 5, 8) ∧
  decode [0x01, 0x10, 0x00, 0x08, 0x00, 0x02, 0x04, 0x00, 0x02, 0x00, 0x1E, 0xC1, 0xD3] =
    .ok (.wrreq 8 2 [0x00, 0x02, 0x00, 0x1E], 13)

/-- R100: the halves a host builds are the stated sums, and they decode back to the record. -/
def Obligations.AlarmHalvesAreTheStatedSums : Prop :=
  ∀ r : AlarmRecord,
    (encodeAlarm r).1.toNat = r.minute.toNat + r.hour.toNat * 64 + r.alarmId.toNat * 2048 ∧
    (encodeAlarm r).2.toNat = r.enabled.toNat + r.repeats.toNat * 2 + r.weekdays.toNat * 4 +
      r.ringtone.toNat * 512 ∧
    decodeAlarm (encodeAlarm r).1 (encodeAlarm r).2 = r

/-- R165, R166, R168, R169, R170: which error each kind of bad buffer raises, and that a whole frame
parses exactly when its checksum is good. -/
def Obligations.ParseErrorsByKind : Prop :=
  ∀ p : Params,
    (∀ (b : Byte) (rest : List Byte), b ≠ 0x01 → parse p (b :: rest) = .error .badMarker) ∧
    parse p [0x01] = .error .truncated ∧
    (∀ (c : Byte) (rest : List Byte), c ≠ 0x03 → c ≠ 0x10 →
      parse p (0x01 :: c :: rest) = .error .badCommand) ∧
    (∀ rest : List Byte, rest.length + 2 < 8 →
      parse p (0x01 :: 0x03 :: rest) = .error .truncated) ∧
    (∀ rest : List Byte, rest.length + 2 < 7 →
      parse p (0x01 :: 0x10 :: rest) = .error .truncated) ∧
    (∀ (h0 h1 h2 h3 ll : Byte) (rest : List Byte), rest.length + 7 < 9 + ll.toNat →
      parse p (0x01 :: 0x10 :: h0 :: h1 :: h2 :: h3 :: ll :: rest) = .error .truncated) ∧
    ∀ (buf : List Byte) (i : Instr) (len : Nat), decode buf = .ok (i, len) →
      parse p buf = if p.ck (buf.take (len - 2)) = be16Val (buf.drop (len - 2))
        then .ok (i, len) else .error .badChecksum

/-! ## The Byte Ingestion Buffer (R140 to R150) -/

/-- R141: a push into a ring that is not full stores its byte at the write cursor's slot and no
other byte, advances the cursor and clears the flag. -/
def Obligations.PushStoresAtTheWriteCursor : Prop :=
  ∀ (b : Byte) (s : State) (rest : List Event), s.takes (.call .interrupt (.push b)) rest →
    Memory.wf s.fifoBuf = true → fifoCount s < 512 →
    ∃ m : Memory, memRead m (s.fifoWr.toNat % 512) = b ∧
      (∀ a, a ≠ s.fifoWr.toNat % 512 → memRead m a = memRead s.fifoBuf a) ∧
      step s = .next (((s.withPending rest).withFifoIn m (s.fifoWr + 1)).withOverflow false)

/-- R142: a push into a full ring sets the flag and drops its byte. -/
def Obligations.PushIntoFullRingDropsTheByte : Prop :=
  ∀ (b : Byte) (s : State) (rest : List Event), s.takes (.call .interrupt (.push b)) rest →
    fifoCount s = 512 → step s = .next ((s.withPending rest).withOverflow true)

/-- R145, R146, for the `Drain` of the FIFO alone, where U14 allows a direct one (log 12): a drain
takes the lesser of what is asked and what is held, from the read cursor on and across the end of the
array, and moves nothing but the read cursor. -/
def Obligations.DrainTakesFromTheReadCursor : Prop :=
  ∀ (n : Nat) (s : State),
    let m := min n (s.fifoWr - s.fifoRd).toNat
    fifoStep (.drain n) s = ((s.withFifoRd (s.fifoRd + BitVec.ofNat 10 m)).withResult
      (.bytes ((List.range m).map fun k => memRead s.fifoBuf ((s.fifoRd.toNat + k) % 512))))

/-- R25, R141, R142, R145: the ring with its two cursors refines the abstract queue of at most 512
bytes. -/
def Obligations.RingRefinesTheAbstractQueue : Prop :=
  ∀ s : State, Memory.wf s.fifoBuf = true → fifoCount s ≤ 512 →
    (∀ b, (fifoQueue s).length < 512 →
      fifoQueue (push b s) = fifoQueue s ++ [b] ∧ (push b s).overflow = false) ∧
    (∀ b, (fifoQueue s).length = 512 →
      fifoQueue (push b s) = fifoQueue s ∧ (push b s).overflow = true) ∧
    ∀ n, drainBytes n s = (fifoQueue s).take n ∧ fifoQueue (drain n s) = (fifoQueue s).drop n ∧
      (drain n s).overflow = s.overflow

/-- R148: at most 512 bytes that the block takes into an empty ring are held in their order, no push
sets the flag, and a `Drain` of as many, direct and so of the FIFO alone (U14; log 12), returns them
in their order and empties the ring. -/
def Obligations.PushesThenDrainReturnThemInOrder : Prop :=
  ∀ (bs : List Byte) (s : State) (rest : List Event), s.phase = .accumulating →
    Memory.wf s.fifoBuf = true → fifoCount s = 0 → bs.length ≤ 512 →
    s.pending = bs.map (fun b => .call .interrupt (.push b)) ++ rest →
    (∀ k, 1 ≤ k → k ≤ bs.length → ∃ t, Host.Core.run Sys2Proof.core k s = .next t ∧
      fifoQueue t = bs.take k ∧ State.overflow t = false) ∧
    ∃ t, Host.Core.run Sys2Proof.core bs.length s = .next t ∧ State.pending t = rest ∧
      (fifoStep (.drain bs.length) t).result = .bytes bs ∧
      fifoCount (fifoStep (.drain bs.length) t) = 0

/-- R144: the overflow flag's life. It is clear at reset; a push sets it exactly when its byte is
dropped and clears it exactly when the byte is accepted; no step but a push or a power-up changes
it, and no `Drain` does. -/
def Obligations.OverflowFlagTellsOfTheLatestPush : Prop :=
  State.reset.overflow = false ∧
  (∀ (b : Byte) (s : State) (rest : List Event), s.takes (.call .interrupt (.push b)) rest →
    fifoCount s ≤ 512 → ∃ t, step s = .next t ∧ t.overflow = decide (fifoCount s = 512)) ∧
  (∀ s t : State, step s = .next t →
    (∀ (ctx : Context) (b : Byte), s.pending.head? ≠ some (.call ctx (.push b))) →
    s.pending.head? ≠ some .powerUp → t.overflow = s.overflow) ∧
  ∀ (n : Nat) (s : State), (fifoStep (.drain n) s).overflow = s.overflow

/-! ## The Frame Decoder (R160 to R181) -/

/-- R161, R162: the drain of a poll takes what fits, oldest first, and never overfills the assembly
buffer; it refreshes the timestamp exactly when a byte came. -/
def Obligations.PollDrainAppendsWhatFits : Prop :=
  ∀ (now : Tick) (s : State), Memory.wf s.asm = true →
    asmBytes (s.drained now) =
      asmBytes s ++ (fifoQueue s).take (Config.asmCap - s.asmLen) ∧
    fifoQueue (s.drained now) = (fifoQueue s).drop (Config.asmCap - s.asmLen) ∧
    (s.drained now).asmLen = s.asmLen + min (Config.asmCap - s.asmLen) (fifoCount s) ∧
    (s.drained now).asmLen ≤ Config.asmCap ∧
    ((s.drained now).lastActivity =
      if (s.drained now).asmLen = s.asmLen then s.lastActivity else now) ∧
    (s.drained now).now = now ∧ (s.drained now).x = s.x ∧ (s.drained now).out = s.out ∧
    (s.drained now).overflow = s.overflow

/-- R163: after its drain a poll goes on to a decode attempt exactly when bytes are pending and the
buffer is full or at least 100 ms have elapsed; otherwise it ends with the buffer kept. -/
def Obligations.PollDecodesExactlyWhenReady : Prop :=
  ∀ (now : Tick) (s : State) (rest : List Event), s.takes (.call .poll (.poll now)) rest →
    let t := (s.withPending rest).drained now
    (t.asmLen = 0 ∨
      (t.asmLen ≠ Config.asmCap ∧ (now - t.lastActivity).toNat < 100) →
      step s = .next t) ∧
    (t.asmLen ≠ 0 →
      (t.asmLen = Config.asmCap ∨ 100 ≤ (now - t.lastActivity).toNat) →
      step s = decodeAttempt (t.withPhase .frameReady))

/-- R296, R295, in the phase a poll passes through (log 16): where the bytes at `asm[0]` hold a request
and the phase is `Validated`, a step is `exec` of that request, then the removal of its bytes. That
bytes left behind an invalid request restart the timeout too is the model's choice between R173 and
R316 (log 30). -/
def Obligations.StepRunsTheDecodedInstruction : Prop :=
  ∀ (s t : State) (i : Instr) (len : Nat), s.phase = .validated →
    decode (asmBytes s) = .ok (i, len) →
    exec i s = .next t → step s = .next (retire len t)

/-- R172, R173: a poll whose buffer starts with a good frame executes it and removes exactly its bytes;
bytes that remain restart the timeout. That they do so behind an invalid request as well is the
model's choice: R172 and R173 against R316, by which such a request changes only `asm` and `asm_len`
(log 30). -/
def Obligations.PollRunsAndRemovesTheFrame : Prop :=
  ∀ (now : Tick) (s : State) (rest : List Event) (i : Instr) (len : Nat), s.Inv →
    s.takes (.call .poll (.poll now)) rest →
    let t := (s.withPending rest).drained now
    ready t = true → parse Config.params (asmBytes t) = .ok (i, len) →
    ∃ u v, exec i t = .next u ∧ step s = .next v ∧ v.x = u.x ∧ v.out = u.out ∧
      asmBytes v = (asmBytes t).drop len ∧ v.phase = .accumulating ∧
      v.lastActivity = (if t.asmLen = len then t.lastActivity else now) ∧
      fifoQueue v = fifoQueue t ∧ v.overflow = t.overflow ∧ v.pending = rest

/-- R173, R204, R212: an invalid request is consumed like any other frame, with no byte sent, no
action, no register written and no resync. -/
def Obligations.InvalidRequestIsConsumedSilently : Prop :=
  ∀ (now : Tick) (s : State) (rest : List Event) (i : Instr) (len : Nat), s.Inv →
    s.takes (.call .poll (.poll now)) rest →
    let t := (s.withPending rest).drained now
    ready t = true → parse Config.params (asmBytes t) = .ok (i, len) →
    invalidRequest i →
    ∃ v, step s = .next v ∧ v.x = s.x ∧ v.out = s.out ∧ asmBytes v = (asmBytes t).drop len ∧
      fifoQueue v = fifoQueue t ∧ v.overflow = s.overflow ∧ v.phase = .accumulating

/-- R175, R176, R177: after a failed parse the buffer starts at the least marker from offset 1 on,
with the timeout restarted and nothing sent; with no marker there it is empty, and with
`ECHO_DISCARD` its bytes have been echoed. Nothing else changes. -/
def Obligations.FailedParseRealignsOrEchoes : Prop :=
  ∀ (now : Tick) (s : State) (rest : List Event) (e : FrameError), s.Inv →
    s.takes (.call .poll (.poll now)) rest →
    let t := (s.withPending rest).drained now
    ready t = true → parse Config.params (asmBytes t) = .error e →
    ∃ v, step s = .next v ∧ v.x = s.x ∧ v.act = s.act ∧ fifoQueue v = fifoQueue t ∧
      v.overflow = s.overflow ∧ v.phase = .accumulating ∧ v.pending = rest ∧
      (∀ k, 1 ≤ k → k < t.asmLen → (asmBytes t)[k]? = some 0x01 →
        (∀ j, 1 ≤ j → j < k → (asmBytes t)[j]? ≠ some 0x01) →
        asmBytes v = (asmBytes t).drop k ∧ v.lastActivity = now ∧ v.out = s.out) ∧
      ((∀ k, 1 ≤ k → (asmBytes t)[k]? ≠ some 0x01) →
        v.asmLen = 0 ∧ v.out = s.out ++
          (if Config.params.echoDiscard then (asmBytes t).map .byte else []))

/-- R178, which the spec derives from R172 and R175: every decode attempt removes at least one byte from the assembly buffer. -/
def Obligations.EveryAttemptRemovesAByte : Prop :=
  ∀ (now : Tick) (s : State) (rest : List Event), s.Inv →
    s.takes (.call .poll (.poll now)) rest →
    ready ((s.withPending rest).drained now) = true →
    ∃ v, step s = .next v ∧ v.asmLen < ((s.withPending rest).drained now).asmLen

/-- R179, which the spec derives from R165 to R176: with a frame, one byte of garbage and a second frame in the buffer, three polls a timeout
apart execute both frames and nothing else, and empty the buffer. Where the first frame is an invalid
request, that the rest waits a fresh timeout is the model's choice, R173 against R316 (log 30). -/
def Obligations.ResyncRecoversTheSecondFrame : Prop :=
  ∀ (s : State) (i j : Instr) (g : Byte) (t1 t2 t3 : Tick) (rest : List Event), s.Inv →
    i.wf = true → i.isRequest = true → j.wf = true → j.isRequest = true →
    fifoCount s = 0 →
    asmBytes s = encode Config.params i ++ [g] ++ encode Config.params j →
    s.pending = .call .poll (.poll t1) :: .call .poll (.poll t2) :: .call .poll (.poll t3) :: rest →
    100 ≤ (t1 - s.lastActivity).toNat → 100 ≤ (t2 - t1).toNat → 100 ≤ (t3 - t2).toNat →
    ∃ u v w : State, exec i s = .next u ∧ exec j u = .next v ∧
      Host.Core.run Sys2Proof.core 3 s = .next w ∧ w.x = v.x ∧ w.out = v.out ∧ w.asmLen = 0 ∧
      w.pending = rest

/-! ## The machine -/

/-- R25, R28, R30: a step from a state of the block leads to a state of the block. -/
def Obligations.StepKeepsTheInvariant : Prop :=
  ∀ s t : State, s.Inv → step s = .next t → t.Inv

/-- The state after reset is a state of the block. -/
def Obligations.ResetMeetsTheInvariant : Prop :=
  State.reset.Inv

/-- R39, R340, R341: what reset leaves. -/
def Obligations.ResetLeavesTheStatedValues : Prop :=
  (∀ id : Nat, State.reset.x.at id = 0) ∧ fifoQueue State.reset = [] ∧
    State.reset.fifoWr = 0 ∧ State.reset.fifoRd = 0 ∧ State.reset.overflow = false ∧
    asmBytes State.reset = [] ∧ State.reset.lastActivity = 0 ∧
    State.reset.phase = .accumulating ∧ State.reset.tx = [] ∧ State.reset.act = []

/-- R335, R340, R342: a power-up is a reset; only the events still to come are kept. That power-up
is an event of the schedule is the model's choice (log 17). -/
def Obligations.PowerUpIsReset : Prop :=
  ∀ (s : State) (rest : List Event), s.takes .powerUp rest →
    step s = .next (State.reset.withPending rest)

/-- R150, R320: a call from the wrong context is refused, whatever the operation. The name of the
refusal and the check at the call are the model's (log 13). -/
def Obligations.WrongContextIsRefused : Prop :=
  ∀ (s : State) (rest : List Event),
    (∀ b, s.takes (.call .poll (.push b)) rest → step s = .refused .wrongContext) ∧
    ∀ op, (∀ b, op ≠ .push b) → s.takes (.call .interrupt op) rest →
      step s = .refused .wrongContext

/-- R340: the block does nothing until a step is applied to it. That the steps asked for are a list in
the state, and that a step with an empty list answers the same state, is the model's choice
(log 4). -/
def Obligations.IdleWithoutEvents : Prop :=
  ∀ s : State, s.phase = .accumulating → s.pending = [] → step s = .next s

/-- R300: nothing is fatal. From every state, whether between polls or in one, a step whose event is of
one of the block's ports (R270), in its own context, answers a next state. That a direct `Drain` is no such event follows U14 against R70 (log 12). -/
def Obligations.LegalEventsNeverStopTheBlock : Prop :=
  ∀ s : State, (s.phase = .accumulating → ∀ e ∈ s.pending.head?, e.legal = true) →
    ∃ t, step s = .next t

/-- R300, R320: from reset, under every schedule of its ports (R270) that keeps the context discipline,
the block runs on and stays within its states. That it idles on after the last event is the model's
choice (log 4), and that a direct `Drain` is no such event follows U14 against R70 (log 12). -/
def Obligations.LegalSchedulesRunOnFromReset : Prop :=
  ∀ (events : List Event) (n : Nat), (∀ e ∈ events, e.legal = true) →
    ∃ t : State, Host.Core.run Sys2Proof.core n (State.reset.withPending events) = .next t ∧ t.Inv

/-- R22, R359: the register table changes only through `RegSet`: in a `RegSet` step, or in a poll that
is ready and finds a good write request; or at power-up, a step of the model (log 17). -/
def Obligations.RegistersChangeOnlyThroughTheSetter : Prop :=
  ∀ s t : State, s.Inv → step s = .next t → t.x = s.x ∨
    (∃ rest, s.pending = .powerUp :: rest) ∨
    (∃ id v rest, s.pending = .call .poll (.regSet id v) :: rest) ∨
    ∃ now rest address count data len, s.pending = .call .poll (.poll now) :: rest ∧
      ready ((s.withPending rest).drained now) = true ∧
      parse Config.params (asmBytes ((s.withPending rest).drained now)) =
        .ok (.wrreq address count data, len)

/-- R36, R37: what the block has sent is never taken back: outputs are only appended, but at a power-up
(log 17), which empties the streams. -/
def Obligations.OutputsAreOnlyAppended : Prop :=
  ∀ s t : State, step s = .next t → s.pending.head? ≠ some .powerUp → s.out <+: t.out

/-- R223: no command reaches the FIFO, the assembly buffer, the timestamp or the flag; R245: a dispatch
writes no state and only appends to `act`. So every instruction leaves everything but the register
table and the outputs unchanged, every byte of memory among it, and only appends outputs. That the
response rows and the register rows complete when executed alone is the model's reading (log 19,
log 20). -/
def Obligations.InstructionsTouchRegistersAndOutputsOnly : Prop :=
  ∀ (i : Instr) (s : State), ∃ t, exec i s = .next t ∧ sameButRegistersAndOutputs s t ∧
    s.out <+: t.out

/-- R68 for the wire read and the upload, R31 for the entries below the threshold: an instruction that
is no write request and no entry of a stored register leaves the register table unchanged. That the
response rows and the register rows complete when executed alone is the model's reading (log 19,
log 20). -/
def Obligations.ReadsLeaveTheRegistersAlone : Prop :=
  ∀ (i : Instr) (s : State), i.mayStore = false → ∃ t, exec i s = .next t ∧ t.x = s.x

/-! ## The direct drain: refused by the block, run by the FIFO alone (U14; log 12) -/

/-- R146, R270: a direct `Drain` is none of the block's ports, and the block refuses it even from the
poll context, so that only a `Poll` takes bytes from the ring. The refusal follows U14 against R70,
R113 and R320, which list the call; its name is the model's (log 12). -/
def Obligations.DirectDrainIsRefusedByTheBlock : Prop :=
  (∀ (n : Nat) (s : State) (rest : List Event), s.takes (.call .poll (.drain n)) rest →
    step s = .refused .directDrain) ∧
  ∀ s t : State, s.phase = .accumulating → step s = .next t → t.fifoRd ≠ s.fifoRd →
    s.pending.head? = some .powerUp ∨
      ∃ now rest, s.pending = .call .poll (.poll now) :: rest ∧ t.fifoRd = (s.drained now).fifoRd

/-- R148, which the spec derives from R141, R142 and R145, for the FIFO alone, where U14 allows a direct
`Drain` (log 12): with pushes and drains interleaved in any way, the bytes held at the start and then
the accepted ones, in push order, are what the drains return and then what is still held; and the ring
stays a queue of at most 512 bytes. -/
def Obligations.DrainsReturnTheAcceptedBytesInOrder : Prop :=
  ∀ (ops : List FifoOp) (s : State), Memory.wf s.fifoBuf = true → fifoCount s ≤ 512 →
    fifoQueue s ++ acceptedBytes ops s = drainedBytes ops s ++ fifoQueue (runFifo ops s) ∧
    Memory.wf (runFifo ops s).fifoBuf = true ∧ fifoCount (runFifo ops s) ≤ 512

/-! ## The length of the assembly buffer (R28) -/

/-- R28: in every state `asm_len` is at most `ASM_CAP`, so that a word of `ceil(log2(ASM_CAP + 1))` bits
holds it, and no narrower word holds every length: `ASM_CAP` itself does not fit. That State holds the
number, with the word as a view of it, is the model's choice (log 14). -/
def Obligations.AssemblyLengthFitsItsWidth : Prop :=
  (∀ s : State, s.asmLen ≤ Config.asmCap ∧ s.asmLenWord.toNat = s.asmLen ∧
    (asmBytes s).length = s.asmLen) ∧
  ∀ w < Config.asmLenBits, ∃ s : State, (BitVec.ofNat w s.asmLen).toNat ≠ s.asmLen
end

