-- ==== Sys2Proof/Laws/Decode.lean ====
section
/-! SUPPORT. Byte order is invertible, and what the decoder can answer, once. -/

namespace Sys2Proof

/-! ## Byte order (R11) -/

@[simp] theorem be16_length (v : Word) : (be16 v).length = 2 := rfl

@[simp] theorem be32_length (v : Word32) : (be32 v).length = 4 := rfl

/-- `BE16` looks at the first two bytes only. -/
@[simp] theorem be16Val_cons_cons (a b : Byte) (rest : List Byte) :
    be16Val (a :: b :: rest) = a ++ b := rfl

/-- `BE16(be16(v)) = v`, whatever follows. -/
@[simp] theorem be16Val_be16 (v : Word) (rest : List Byte) : be16Val (be16 v ++ rest) = v := by
  show v.extractLsb' 8 8 ++ v.extractLsb' 0 8 = v
  ext i hi
  simp only [BitVec.getElem_append, BitVec.getElem_extractLsb']
  split
  · simp [BitVec.getLsbD_eq_getElem (show i < 16 by omega)]
  · rw [show 8 + (i - 8) = i by omega, BitVec.getLsbD_eq_getElem (show i < 16 by omega)]

/-- `be16(BE16(s))` gives the two bytes back. -/
@[simp] theorem be16_append (a b : Byte) : be16 (a ++ b : Word) = [a, b] := by
  have h1 : (a ++ b : BitVec (8 + 8)).extractLsb' 8 8 = a := by
    ext i hi
    rw [BitVec.getElem_extractLsb', BitVec.getLsbD_append, if_neg (by omega),
      show 8 + i - 8 = i by omega, BitVec.getLsbD_eq_getElem hi]
  have h2 : (a ++ b : BitVec (8 + 8)).extractLsb' 0 8 = b := by
    ext i hi
    rw [BitVec.getElem_extractLsb', BitVec.getLsbD_append, if_pos (by omega), Nat.zero_add,
      BitVec.getLsbD_eq_getElem hi]
  exact congrArg₂ (fun x y => [x, y]) h1 h2

/-- `BE32(be32(v)) = v`, whatever follows. -/
@[simp] theorem be32Val_be32 (v : Word32) (rest : List Byte) : be32Val (be32 v ++ rest) = v := by
  show (v.extractLsb' 24 8 ++ v.extractLsb' 16 8 : BitVec 16) ++
    (v.extractLsb' 8 8 ++ v.extractLsb' 0 8 : BitVec 16) = v
  ext i hi
  simp only [BitVec.getElem_append, BitVec.getElem_extractLsb']
  split
  · split
    · simp [BitVec.getLsbD_eq_getElem (show i < 32 by omega)]
    · rw [show 8 + (i - 8) = i by omega, BitVec.getLsbD_eq_getElem (show i < 32 by omega)]
  · split
    · rw [show 16 + (i - 16) = i by omega, BitVec.getLsbD_eq_getElem (show i < 32 by omega)]
    · rw [show 24 + (i - 16 - 8) = i by omega, BitVec.getLsbD_eq_getElem (show i < 32 by omega)]

/-- As a number, `BE16` is `s[0]*256 + s[1]` (R11). -/
theorem be16Val_toNat (a b : Byte) (rest : List Byte) :
    (be16Val (a :: b :: rest)).toNat = a.toNat * 256 + b.toNat := by
  rw [be16Val_cons_cons, BitVec.toNat_append, Nat.shiftLeft_eq,
    ← Nat.shiftLeft_eq, ← Nat.shiftLeft_add_eq_or_of_lt b.isLt, Nat.shiftLeft_eq]

/-- As a number, `BE32` is the big-endian sum of its four bytes (R11). -/
theorem be32Val_toNat (a b c d : Byte) (rest : List Byte) :
    (be32Val (a :: b :: c :: d :: rest)).toNat =
      a.toNat * 2 ^ 24 + b.toNat * 2 ^ 16 + c.toNat * 2 ^ 8 + d.toNat := by
  have h1 := be16Val_toNat a b (c :: d :: rest)
  have h2 := be16Val_toNat c d rest
  have hlt : (be16Val (c :: d :: rest)).toNat < 2 ^ 16 := BitVec.isLt _
  simp only [be32Val, List.drop_succ_cons, List.drop_zero, BitVec.toNat_append]
  rw [← Nat.shiftLeft_add_eq_or_of_lt hlt, Nat.shiftLeft_eq, h1, h2]
  omega

/-- A value list read back from its bytes (R93). -/
theorem wordsOf_flatMap_be16 (vs : List Word) : wordsOf (vs.flatMap be16) = vs := by
  induction vs with
  | nil => rfl
  | cons v vs ih =>
    have h : (v :: vs).flatMap be16 =
        v.extractLsb' 8 8 :: v.extractLsb' 0 8 :: vs.flatMap be16 := rfl
    have hv := be16Val_be16 v []
    rw [List.append_nil] at hv
    rw [h, wordsOf, ih, show [v.extractLsb' 8 8, v.extractLsb' 0 8] = be16 v from rfl, hv]

@[simp] theorem flatMap_be16_length (vs : List Word) :
    (vs.flatMap be16).length = 2 * vs.length := by
  induction vs with
  | nil => rfl
  | cons v vs ih => simp only [List.flatMap_cons, List.length_append, be16_length, ih,
      List.length_cons]; omega

/-! ## What the decoder can answer -/

/-- The length field of a frame comes from its own bytes: what each answer of `frameLength` means
(R165 to R168). -/
theorem frameLength_ok {buf : List Byte} {len : Nat} (h : frameLength buf = .ok len) :
    ∃ rest, (buf = Config.marker :: Config.cmdRead :: rest ∧ len = 8) ∨
      (buf = Config.marker :: Config.cmdWrite :: rest ∧ 7 ≤ buf.length ∧
        len = 9 + (buf.getD 6 0).toNat) := by
  unfold frameLength at h
  split at h
  · cases h
  · next m rest =>
    split at h
    · next hm =>
      subst hm
      split at h
      · cases h
      · next c rest' =>
        split at h
        · next hc => subst hc; cases h; exact ⟨rest', .inl ⟨rfl, rfl⟩⟩
        · split at h
          · next hc =>
            subst hc
            split at h
            · cases h
            · next hl => cases h; exact ⟨rest', .inr ⟨rfl, by omega, rfl⟩⟩
          · cases h
    · cases h

/-- A frame whose length is known has a request: its command byte is one of the two (R168). -/
theorem requestOf_isSome {buf : List Byte} {len : Nat} (h : frameLength buf = .ok len) :
    (requestOf (buf.take len)).isSome = true := by
  obtain ⟨rest, ⟨rfl, rfl⟩ | ⟨rfl, _, rfl⟩⟩ := frameLength_ok h
  · rfl
  · rw [Nat.add_comm]
    rfl

/-- A decoded frame is a whole frame of at least 8 bytes that lies in the buffer (R169). -/
theorem decode_ok {buf : List Byte} {i : Instr} {len : Nat} (h : decode buf = .ok (i, len)) :
    frameLength buf = .ok len ∧ len ≤ buf.length ∧ requestOf (buf.take len) = some i ∧
      8 ≤ len := by
  unfold decode at h
  split at h
  · cases h
  · next l hl =>
    split at h
    · cases h
    · next hle =>
      split at h
      · next j hj =>
        cases h
        refine ⟨hl, by omega, hj, ?_⟩
        obtain ⟨rest, ⟨_, h8⟩ | ⟨_, _, h9⟩⟩ := frameLength_ok hl <;> omega
      · cases h

/-- A whole frame of a known length decodes to its request (R169). -/
theorem decode_of_requestOf {buf : List Byte} {i : Instr} {len : Nat} (h : frameLength buf = .ok len)
    (hle : len ≤ buf.length) (hi : requestOf (buf.take len) = some i) : decode buf = .ok (i, len) := by
  unfold decode
  rw [h]
  simp only [if_neg (Nat.not_lt.2 hle), hi]

/-- What the command byte can select (R200, R254). -/
theorem requestOf_cases {f : List Byte} {i : Instr} (h : requestOf f = some i) :
    (f.getD 1 0 = Config.cmdRead ∧
      i = .rdreq (be16Val (f.drop 2)) (be16Val (f.drop 4))) ∨
    (f.getD 1 0 = Config.cmdWrite ∧
      i = .wrreq (be16Val (f.drop 2)) (be16Val (f.drop 4))
        ((f.drop 7).take (f.getD 6 0).toNat)) := by
  unfold requestOf at h
  split at h
  · next hc => cases h; exact .inl ⟨hc, rfl⟩
  · split at h
    · next hc => cases h; exact .inr ⟨hc, rfl⟩
    · cases h

/-- A parsed frame is a decoded one whose checksum is good (R170). -/
theorem parse_ok {p : Params} {buf : List Byte} {i : Instr} {len : Nat} :
    parse p buf = .ok (i, len) ↔ decode buf = .ok (i, len) ∧ checksumOk p (buf.take len) = true := by
  unfold parse
  split
  · next e he => simp [he]
  · next j l hj =>
    rw [hj]
    split
    · next hc => simp only [Except.ok.injEq, Prod.mk.injEq]; constructor
                 · rintro ⟨rfl, rfl⟩; exact ⟨⟨rfl, rfl⟩, hc⟩
                 · exact fun h => h.1
    · next hc =>
      simp only [Except.ok.injEq, Prod.mk.injEq, reduceCtorEq, false_iff, not_and]
      rintro ⟨rfl, rfl⟩
      exact hc

end Sys2Proof
end

