-- ==== Sys2Proof/Laws/Memory.lean ====
section
/-! SUPPORT. The laws of byte memories: read after write, and every operation keeps the canonical
form and the address range. -/

namespace Sys2Proof.Machine

/-- The canonical form of a nonempty memory, unfolded once. -/
theorem Memory.wf_cons {a : Nat} {b : Byte} {m : Memory} :
    Memory.wf ((a, b) :: m) = true ↔
      b ≠ memDefault ∧ (∀ c ∈ m, a < c.1) ∧ Memory.wf m = true := by
  induction m generalizing a b with
  | nil => simp [Memory.wf]
  | cons c m ih =>
    obtain ⟨a', b'⟩ := c
    have ih' := @ih a' b'
    simp only [Memory.wf, Bool.and_eq_true, bne_iff_ne, decide_eq_true_eq, ih', List.mem_cons,
      forall_eq_or_imp]
    constructor
    · rintro ⟨⟨hb, hlt⟩, hb', hm, hw⟩
      exact ⟨hb, ⟨hlt, fun c hc => lt_trans hlt (hm c hc)⟩, hb', hm, hw⟩
    · rintro ⟨hb, ⟨hlt, _⟩, hb', hm, hw⟩
      exact ⟨⟨hb, hlt⟩, hb', hm, hw⟩

/-- An address below every listed one reads as an unlisted address. -/
theorem memRead_of_lt {m : Memory} {a : Nat} (h : ∀ c ∈ m, a < c.1) : memRead m a = memDefault := by
  induction m with
  | nil => rfl
  | cons c m ih =>
    obtain ⟨a', b'⟩ := c
    have h1 : a < a' := h (a', b') (by simp)
    simp only [memRead, if_neg (Nat.ne_of_lt h1)]
    exact ih fun c hc => h c (List.mem_cons_of_mem _ hc)

/-- The entries of a memory after a write come from the write or were there before. -/
theorem mem_memWrite {m : Memory} {a : Nat} {b : Byte} {c : Host.Cell} (h : c ∈ memWrite m a b) :
    c = (a, b) ∨ c ∈ m := by
  induction m with
  | nil =>
    simp only [memWrite] at h
    split at h <;> simp_all
  | cons d m ih =>
    obtain ⟨a', b'⟩ := d
    simp only [memWrite] at h
    split at h
    · split at h
      · exact .inr h
      · rcases List.mem_cons.1 h with h | h
        · exact .inl h
        · exact .inr h
    · split at h
      · split at h
        · exact .inr (List.mem_cons_of_mem _ h)
        · rcases List.mem_cons.1 h with h | h
          · exact .inl h
          · exact .inr (List.mem_cons_of_mem _ h)
      · rcases List.mem_cons.1 h with h | h
        · exact .inr (by simp [h])
        · rcases ih h with h | h
          · exact .inl h
          · exact .inr (List.mem_cons_of_mem _ h)

/-- A write keeps the canonical form. -/
theorem memWrite_wf {m : Memory} (a : Nat) (b : Byte) (h : Memory.wf m = true) :
    Memory.wf (memWrite m a b) = true := by
  induction m with
  | nil =>
    simp only [memWrite]
    split <;> simp_all [Memory.wf]
  | cons c m ih =>
    obtain ⟨a', b'⟩ := c
    have h' := Memory.wf_cons.1 h
    simp only [memWrite]
    split
    · next hlt =>
      split
      · exact h
      · next hb =>
        refine Memory.wf_cons.2 ⟨hb, ?_, h⟩
        intro c hc
        rcases List.mem_cons.1 hc with hc | hc
        · simpa [hc] using hlt
        · exact lt_trans hlt (h'.2.1 c hc)
    · next hge =>
      split
      · next heq =>
        split
        · exact h'.2.2
        · next hb => exact Memory.wf_cons.2 ⟨hb, by simpa [heq] using h'.2.1, h'.2.2⟩
      · next hne =>
        refine Memory.wf_cons.2 ⟨h'.1, ?_, ih h'.2.2⟩
        intro c hc
        rcases mem_memWrite hc with hc | hc
        · simp only [hc]; omega
        · exact h'.2.1 c hc

/-- A write below `n` keeps every address below `n`. -/
theorem memWrite_below {m : Memory} {n a : Nat} (b : Byte) (h : Memory.below n m = true)
    (ha : a < n) : Memory.below n (memWrite m a b) = true := by
  simp only [Memory.below, List.all_eq_true, decide_eq_true_eq] at h ⊢
  intro c hc
  rcases mem_memWrite hc with hc | hc
  · simpa [hc] using ha
  · exact h c hc

/-- Read after write, same address. -/
@[simp] theorem memRead_memWrite_same {m : Memory} (a : Nat) (b : Byte) (h : Memory.wf m = true) :
    memRead (memWrite m a b) a = b := by
  induction m with
  | nil =>
    simp only [memWrite]
    split <;> simp_all [memRead]
  | cons c m ih =>
    obtain ⟨a', b'⟩ := c
    have h' := Memory.wf_cons.1 h
    simp only [memWrite]
    split
    · next hlt =>
      split
      · next hb =>
        rw [hb]
        refine memRead_of_lt fun c hc => ?_
        rcases List.mem_cons.1 hc with hc | hc
        · simpa [hc] using hlt
        · exact lt_trans hlt (h'.2.1 c hc)
      · simp [memRead]
    · split
      · next heq =>
        split
        · next hb => rw [hb]; exact memRead_of_lt fun c hc => heq ▸ h'.2.1 c hc
        · simp [memRead]
      · next hne => simp only [memRead, if_neg hne]; exact ih h'.2.2

/-- Read after write, another address. -/
theorem memRead_memWrite_ne (m : Memory) {a a' : Nat} (b : Byte) (hne : a' ≠ a) :
    memRead (memWrite m a b) a' = memRead m a' := by
  induction m with
  | nil =>
    simp only [memWrite]
    split <;> simp [memRead, hne]
  | cons c m ih =>
    obtain ⟨d, e⟩ := c
    simp only [memWrite]
    split
    · split <;> simp [memRead, hne]
    · split
      · next heq =>
        subst heq
        split <;> simp [memRead, hne]
      · simp only [memRead, ih]

/-- Memories in canonical form that read alike are equal. -/
theorem Memory.ext_of_wf {m m' : Memory} (h : Memory.wf m = true) (h' : Memory.wf m' = true)
    (heq : ∀ a, memRead m a = memRead m' a) : m = m' := by
  induction m generalizing m' with
  | nil =>
    cases m' with
    | nil => rfl
    | cons c m' =>
      obtain ⟨a, b⟩ := c
      have := heq a
      simp only [memRead, if_true] at this
      exact absurd this.symm (Memory.wf_cons.1 h').1
  | cons c m ih =>
    obtain ⟨a, b⟩ := c
    have hw := Memory.wf_cons.1 h
    cases m' with
    | nil =>
      have := heq a
      simp only [memRead, if_true] at this
      exact absurd this hw.1
    | cons d m' =>
      obtain ⟨a', b'⟩ := d
      have hw' := Memory.wf_cons.1 h'
      have e1 := heq a
      have e2 := heq a'
      simp only [memRead, if_true] at e1 e2
      have haa : a = a' := by
        by_contra hne
        rw [if_neg hne] at e1
        rw [if_neg (Ne.symm hne)] at e2
        rcases Nat.lt_or_gt_of_ne hne with hlt | hgt
        · exact hw.1 (e1.trans (memRead_of_lt fun c hc => lt_trans hlt (hw'.2.1 c hc)))
        · exact hw'.1 (e2.symm.trans (memRead_of_lt fun c hc => lt_trans hgt (hw.2.1 c hc)))
      subst haa
      simp only [if_true] at e1
      subst e1
      have : m = m' := by
        refine ih hw.2.2 hw'.2.2 fun x => ?_
        by_cases hx : x = a
        · subst hx
          rw [memRead_of_lt hw.2.1, memRead_of_lt hw'.2.1]
        · have := heq x
          simpa [memRead, hx] using this
      rw [this]

/-! ## Several bytes at once -/

@[simp] theorem memReadN_length (m : Memory) (a n : Nat) : (memReadN m a n).length = n := by
  simp [memReadN]

@[simp] theorem memReadN_zero (m : Memory) (a : Nat) : memReadN m a 0 = [] := rfl

theorem memReadN_getElem (m : Memory) (a n k : Nat) (h : k < (memReadN m a n).length) :
    (memReadN m a n)[k] = memRead m (a + k) := by
  simp [memReadN]

/-- Reading on from where a read ended. -/
theorem memReadN_add (m : Memory) (a n k : Nat) :
    memReadN m a (n + k) = memReadN m a n ++ memReadN m (a + n) k := by
  simp only [memReadN, List.range_add, List.map_append, List.map_map]
  congr 1
  exact List.map_congr_left fun j _ => by simp [Nat.add_assoc]

/-- Memories that agree on the range read alike there. -/
theorem memReadN_congr {m m' : Memory} {a n : Nat}
    (h : ∀ x, a ≤ x → x < a + n → memRead m x = memRead m' x) : memReadN m a n = memReadN m' a n := by
  refine List.map_congr_left fun k hk => h _ (by omega) ?_
  have := List.mem_range.1 hk
  omega

/-- A multi-byte write keeps the canonical form. -/
theorem memWriteN_wf {m : Memory} (a : Nat) (bs : List Byte) (h : Memory.wf m = true) :
    Memory.wf (memWriteN m a bs) = true := by
  induction bs generalizing m a with
  | nil => exact h
  | cons b bs ih => exact ih _ (memWrite_wf a b h)

/-- A multi-byte write below `n` keeps every address below `n`. -/
theorem memWriteN_below {m : Memory} {n a : Nat} {bs : List Byte} (h : Memory.below n m = true)
    (ha : a + bs.length ≤ n) : Memory.below n (memWriteN m a bs) = true := by
  induction bs generalizing m a with
  | nil => exact h
  | cons b bs ih =>
    simp only [List.length_cons] at ha
    exact ih (memWrite_below b h (by omega)) (by omega)

/-- A multi-byte write leaves every address outside its range alone. -/
theorem memRead_memWriteN_outside (m : Memory) {a x : Nat} (bs : List Byte)
    (h : x < a ∨ a + bs.length ≤ x) : memRead (memWriteN m a bs) x = memRead m x := by
  induction bs generalizing m a with
  | nil => rfl
  | cons b bs ih =>
    simp only [List.length_cons] at h
    rw [memWriteN, ih _ (by omega), memRead_memWrite_ne _ _ (by omega)]

/-- Read after a multi-byte write, one byte. -/
theorem memRead_memWriteN_inside {m : Memory} {a k : Nat} {bs : List Byte} (h : Memory.wf m = true)
    (hk : k < bs.length) : memRead (memWriteN m a bs) (a + k) = bs[k] := by
  induction bs generalizing m a k with
  | nil => simp at hk
  | cons b bs ih =>
    cases k with
    | zero =>
      rw [memWriteN, memRead_memWriteN_outside _ _ (by omega)]
      simpa using memRead_memWrite_same a b h
    | succ k =>
      have := ih (m := memWrite m a b) (a := a + 1) (k := k) (memWrite_wf a b h)
        (by simpa using hk)
      simpa [memWriteN, Nat.add_assoc, Nat.add_comm 1 k] using this

/-- Read after a multi-byte write, the whole of it. -/
theorem memReadN_memWriteN {m : Memory} (a : Nat) (bs : List Byte) (h : Memory.wf m = true) :
    memReadN (memWriteN m a bs) a bs.length = bs := by
  refine List.ext_getElem (by simp) fun k h1 h2 => ?_
  rw [memReadN_getElem, memRead_memWriteN_inside h h2]

end Sys2Proof.Machine
end

