-- ==== Sys2Proof/Laws/State.lean ====
section
/-! SUPPORT. One lemma per field per update of the state, so that no later proof unfolds a record
update. -/

namespace Sys2Proof.Machine

/-! ## `asm_len` within its bounds and its width (R28) -/

theorem State.asmLen_le (s : State) : s.asmLen ≤ Config.asmCap :=
  Nat.le_of_lt_succ s.asmCount.isLt

@[simp] theorem State.asmLenWord_toNat (s : State) : s.asmLenWord.toNat = s.asmLen :=
  (BitVec.toNat_ofNat _ _).trans (Nat.mod_eq_of_lt
    (Nat.lt_of_lt_of_le s.asmCount.isLt (Nat.le_pow_clog (by decide) _)))

/-! ## `State.withX` -/

@[simp] theorem State.withX_x (s : State) (x : Regs) : (s.withX x).x = x := rfl
@[simp] theorem State.withX_fifoBuf (s : State) (x : Regs) : (s.withX x).fifoBuf = s.fifoBuf := rfl
@[simp] theorem State.withX_fifoWr (s : State) (x : Regs) : (s.withX x).fifoWr = s.fifoWr := rfl
@[simp] theorem State.withX_fifoRd (s : State) (x : Regs) : (s.withX x).fifoRd = s.fifoRd := rfl
@[simp] theorem State.withX_overflow (s : State) (x : Regs) : (s.withX x).overflow = s.overflow := rfl
@[simp] theorem State.withX_asm (s : State) (x : Regs) : (s.withX x).asm = s.asm := rfl
@[simp] theorem State.withX_asmCount (s : State) (x : Regs) : (s.withX x).asmCount = s.asmCount := rfl
@[simp] theorem State.withX_asmLen (s : State) (x : Regs) : (s.withX x).asmLen = s.asmLen := rfl
@[simp] theorem State.withX_lastActivity (s : State) (x : Regs) : (s.withX x).lastActivity = s.lastActivity := rfl
@[simp] theorem State.withX_phase (s : State) (x : Regs) : (s.withX x).phase = s.phase := rfl
@[simp] theorem State.withX_out (s : State) (x : Regs) : (s.withX x).out = s.out := rfl
@[simp] theorem State.withX_now (s : State) (x : Regs) : (s.withX x).now = s.now := rfl
@[simp] theorem State.withX_result (s : State) (x : Regs) : (s.withX x).result = s.result := rfl
@[simp] theorem State.withX_pending (s : State) (x : Regs) : (s.withX x).pending = s.pending := rfl

/-! ## `State.withFifoIn` -/

@[simp] theorem State.withFifoIn_x (s : State) (buf : Memory) (wr : Cursor) : (s.withFifoIn buf wr).x = s.x := rfl
@[simp] theorem State.withFifoIn_fifoBuf (s : State) (buf : Memory) (wr : Cursor) : (s.withFifoIn buf wr).fifoBuf = buf := rfl
@[simp] theorem State.withFifoIn_fifoWr (s : State) (buf : Memory) (wr : Cursor) : (s.withFifoIn buf wr).fifoWr = wr := rfl
@[simp] theorem State.withFifoIn_fifoRd (s : State) (buf : Memory) (wr : Cursor) : (s.withFifoIn buf wr).fifoRd = s.fifoRd := rfl
@[simp] theorem State.withFifoIn_overflow (s : State) (buf : Memory) (wr : Cursor) : (s.withFifoIn buf wr).overflow = s.overflow := rfl
@[simp] theorem State.withFifoIn_asm (s : State) (buf : Memory) (wr : Cursor) : (s.withFifoIn buf wr).asm = s.asm := rfl
@[simp] theorem State.withFifoIn_asmCount (s : State) (buf : Memory) (wr : Cursor) : (s.withFifoIn buf wr).asmCount = s.asmCount := rfl
@[simp] theorem State.withFifoIn_asmLen (s : State) (buf : Memory) (wr : Cursor) : (s.withFifoIn buf wr).asmLen = s.asmLen := rfl
@[simp] theorem State.withFifoIn_lastActivity (s : State) (buf : Memory) (wr : Cursor) : (s.withFifoIn buf wr).lastActivity = s.lastActivity := rfl
@[simp] theorem State.withFifoIn_phase (s : State) (buf : Memory) (wr : Cursor) : (s.withFifoIn buf wr).phase = s.phase := rfl
@[simp] theorem State.withFifoIn_out (s : State) (buf : Memory) (wr : Cursor) : (s.withFifoIn buf wr).out = s.out := rfl
@[simp] theorem State.withFifoIn_now (s : State) (buf : Memory) (wr : Cursor) : (s.withFifoIn buf wr).now = s.now := rfl
@[simp] theorem State.withFifoIn_result (s : State) (buf : Memory) (wr : Cursor) : (s.withFifoIn buf wr).result = s.result := rfl
@[simp] theorem State.withFifoIn_pending (s : State) (buf : Memory) (wr : Cursor) : (s.withFifoIn buf wr).pending = s.pending := rfl

/-! ## `State.withFifoRd` -/

@[simp] theorem State.withFifoRd_x (s : State) (rd : Cursor) : (s.withFifoRd rd).x = s.x := rfl
@[simp] theorem State.withFifoRd_fifoBuf (s : State) (rd : Cursor) : (s.withFifoRd rd).fifoBuf = s.fifoBuf := rfl
@[simp] theorem State.withFifoRd_fifoWr (s : State) (rd : Cursor) : (s.withFifoRd rd).fifoWr = s.fifoWr := rfl
@[simp] theorem State.withFifoRd_fifoRd (s : State) (rd : Cursor) : (s.withFifoRd rd).fifoRd = rd := rfl
@[simp] theorem State.withFifoRd_overflow (s : State) (rd : Cursor) : (s.withFifoRd rd).overflow = s.overflow := rfl
@[simp] theorem State.withFifoRd_asm (s : State) (rd : Cursor) : (s.withFifoRd rd).asm = s.asm := rfl
@[simp] theorem State.withFifoRd_asmCount (s : State) (rd : Cursor) : (s.withFifoRd rd).asmCount = s.asmCount := rfl
@[simp] theorem State.withFifoRd_asmLen (s : State) (rd : Cursor) : (s.withFifoRd rd).asmLen = s.asmLen := rfl
@[simp] theorem State.withFifoRd_lastActivity (s : State) (rd : Cursor) : (s.withFifoRd rd).lastActivity = s.lastActivity := rfl
@[simp] theorem State.withFifoRd_phase (s : State) (rd : Cursor) : (s.withFifoRd rd).phase = s.phase := rfl
@[simp] theorem State.withFifoRd_out (s : State) (rd : Cursor) : (s.withFifoRd rd).out = s.out := rfl
@[simp] theorem State.withFifoRd_now (s : State) (rd : Cursor) : (s.withFifoRd rd).now = s.now := rfl
@[simp] theorem State.withFifoRd_result (s : State) (rd : Cursor) : (s.withFifoRd rd).result = s.result := rfl
@[simp] theorem State.withFifoRd_pending (s : State) (rd : Cursor) : (s.withFifoRd rd).pending = s.pending := rfl

/-! ## `State.withOverflow` -/

@[simp] theorem State.withOverflow_x (s : State) (b : Bool) : (s.withOverflow b).x = s.x := rfl
@[simp] theorem State.withOverflow_fifoBuf (s : State) (b : Bool) : (s.withOverflow b).fifoBuf = s.fifoBuf := rfl
@[simp] theorem State.withOverflow_fifoWr (s : State) (b : Bool) : (s.withOverflow b).fifoWr = s.fifoWr := rfl
@[simp] theorem State.withOverflow_fifoRd (s : State) (b : Bool) : (s.withOverflow b).fifoRd = s.fifoRd := rfl
@[simp] theorem State.withOverflow_overflow (s : State) (b : Bool) : (s.withOverflow b).overflow = b := rfl
@[simp] theorem State.withOverflow_asm (s : State) (b : Bool) : (s.withOverflow b).asm = s.asm := rfl
@[simp] theorem State.withOverflow_asmCount (s : State) (b : Bool) : (s.withOverflow b).asmCount = s.asmCount := rfl
@[simp] theorem State.withOverflow_asmLen (s : State) (b : Bool) : (s.withOverflow b).asmLen = s.asmLen := rfl
@[simp] theorem State.withOverflow_lastActivity (s : State) (b : Bool) : (s.withOverflow b).lastActivity = s.lastActivity := rfl
@[simp] theorem State.withOverflow_phase (s : State) (b : Bool) : (s.withOverflow b).phase = s.phase := rfl
@[simp] theorem State.withOverflow_out (s : State) (b : Bool) : (s.withOverflow b).out = s.out := rfl
@[simp] theorem State.withOverflow_now (s : State) (b : Bool) : (s.withOverflow b).now = s.now := rfl
@[simp] theorem State.withOverflow_result (s : State) (b : Bool) : (s.withOverflow b).result = s.result := rfl
@[simp] theorem State.withOverflow_pending (s : State) (b : Bool) : (s.withOverflow b).pending = s.pending := rfl

/-! ## `State.withAsm` -/

@[simp] theorem State.withAsm_x (s : State) (m : Memory) (len : AsmLen) : (s.withAsm m len).x = s.x := rfl
@[simp] theorem State.withAsm_fifoBuf (s : State) (m : Memory) (len : AsmLen) : (s.withAsm m len).fifoBuf = s.fifoBuf := rfl
@[simp] theorem State.withAsm_fifoWr (s : State) (m : Memory) (len : AsmLen) : (s.withAsm m len).fifoWr = s.fifoWr := rfl
@[simp] theorem State.withAsm_fifoRd (s : State) (m : Memory) (len : AsmLen) : (s.withAsm m len).fifoRd = s.fifoRd := rfl
@[simp] theorem State.withAsm_overflow (s : State) (m : Memory) (len : AsmLen) : (s.withAsm m len).overflow = s.overflow := rfl
@[simp] theorem State.withAsm_asm (s : State) (m : Memory) (len : AsmLen) : (s.withAsm m len).asm = m := rfl
@[simp] theorem State.withAsm_asmCount (s : State) (m : Memory) (len : AsmLen) : (s.withAsm m len).asmCount = len := rfl
@[simp] theorem State.withAsm_asmLen (s : State) (m : Memory) (len : AsmLen) : (s.withAsm m len).asmLen = len.val := rfl
@[simp] theorem State.withAsm_lastActivity (s : State) (m : Memory) (len : AsmLen) : (s.withAsm m len).lastActivity = s.lastActivity := rfl
@[simp] theorem State.withAsm_phase (s : State) (m : Memory) (len : AsmLen) : (s.withAsm m len).phase = s.phase := rfl
@[simp] theorem State.withAsm_out (s : State) (m : Memory) (len : AsmLen) : (s.withAsm m len).out = s.out := rfl
@[simp] theorem State.withAsm_now (s : State) (m : Memory) (len : AsmLen) : (s.withAsm m len).now = s.now := rfl
@[simp] theorem State.withAsm_result (s : State) (m : Memory) (len : AsmLen) : (s.withAsm m len).result = s.result := rfl
@[simp] theorem State.withAsm_pending (s : State) (m : Memory) (len : AsmLen) : (s.withAsm m len).pending = s.pending := rfl

/-! ## `State.withActivity` -/

@[simp] theorem State.withActivity_x (s : State) (t : Tick) : (s.withActivity t).x = s.x := rfl
@[simp] theorem State.withActivity_fifoBuf (s : State) (t : Tick) : (s.withActivity t).fifoBuf = s.fifoBuf := rfl
@[simp] theorem State.withActivity_fifoWr (s : State) (t : Tick) : (s.withActivity t).fifoWr = s.fifoWr := rfl
@[simp] theorem State.withActivity_fifoRd (s : State) (t : Tick) : (s.withActivity t).fifoRd = s.fifoRd := rfl
@[simp] theorem State.withActivity_overflow (s : State) (t : Tick) : (s.withActivity t).overflow = s.overflow := rfl
@[simp] theorem State.withActivity_asm (s : State) (t : Tick) : (s.withActivity t).asm = s.asm := rfl
@[simp] theorem State.withActivity_asmCount (s : State) (t : Tick) : (s.withActivity t).asmCount = s.asmCount := rfl
@[simp] theorem State.withActivity_asmLen (s : State) (t : Tick) : (s.withActivity t).asmLen = s.asmLen := rfl
@[simp] theorem State.withActivity_lastActivity (s : State) (t : Tick) : (s.withActivity t).lastActivity = t := rfl
@[simp] theorem State.withActivity_phase (s : State) (t : Tick) : (s.withActivity t).phase = s.phase := rfl
@[simp] theorem State.withActivity_out (s : State) (t : Tick) : (s.withActivity t).out = s.out := rfl
@[simp] theorem State.withActivity_now (s : State) (t : Tick) : (s.withActivity t).now = s.now := rfl
@[simp] theorem State.withActivity_result (s : State) (t : Tick) : (s.withActivity t).result = s.result := rfl
@[simp] theorem State.withActivity_pending (s : State) (t : Tick) : (s.withActivity t).pending = s.pending := rfl

/-! ## `State.withPhase` -/

@[simp] theorem State.withPhase_x (s : State) (ph : Phase) : (s.withPhase ph).x = s.x := rfl
@[simp] theorem State.withPhase_fifoBuf (s : State) (ph : Phase) : (s.withPhase ph).fifoBuf = s.fifoBuf := rfl
@[simp] theorem State.withPhase_fifoWr (s : State) (ph : Phase) : (s.withPhase ph).fifoWr = s.fifoWr := rfl
@[simp] theorem State.withPhase_fifoRd (s : State) (ph : Phase) : (s.withPhase ph).fifoRd = s.fifoRd := rfl
@[simp] theorem State.withPhase_overflow (s : State) (ph : Phase) : (s.withPhase ph).overflow = s.overflow := rfl
@[simp] theorem State.withPhase_asm (s : State) (ph : Phase) : (s.withPhase ph).asm = s.asm := rfl
@[simp] theorem State.withPhase_asmCount (s : State) (ph : Phase) : (s.withPhase ph).asmCount = s.asmCount := rfl
@[simp] theorem State.withPhase_asmLen (s : State) (ph : Phase) : (s.withPhase ph).asmLen = s.asmLen := rfl
@[simp] theorem State.withPhase_lastActivity (s : State) (ph : Phase) : (s.withPhase ph).lastActivity = s.lastActivity := rfl
@[simp] theorem State.withPhase_phase (s : State) (ph : Phase) : (s.withPhase ph).phase = ph := rfl
@[simp] theorem State.withPhase_out (s : State) (ph : Phase) : (s.withPhase ph).out = s.out := rfl
@[simp] theorem State.withPhase_now (s : State) (ph : Phase) : (s.withPhase ph).now = s.now := rfl
@[simp] theorem State.withPhase_result (s : State) (ph : Phase) : (s.withPhase ph).result = s.result := rfl
@[simp] theorem State.withPhase_pending (s : State) (ph : Phase) : (s.withPhase ph).pending = s.pending := rfl

/-! ## `State.withNow` -/

@[simp] theorem State.withNow_x (s : State) (t : Tick) : (s.withNow t).x = s.x := rfl
@[simp] theorem State.withNow_fifoBuf (s : State) (t : Tick) : (s.withNow t).fifoBuf = s.fifoBuf := rfl
@[simp] theorem State.withNow_fifoWr (s : State) (t : Tick) : (s.withNow t).fifoWr = s.fifoWr := rfl
@[simp] theorem State.withNow_fifoRd (s : State) (t : Tick) : (s.withNow t).fifoRd = s.fifoRd := rfl
@[simp] theorem State.withNow_overflow (s : State) (t : Tick) : (s.withNow t).overflow = s.overflow := rfl
@[simp] theorem State.withNow_asm (s : State) (t : Tick) : (s.withNow t).asm = s.asm := rfl
@[simp] theorem State.withNow_asmCount (s : State) (t : Tick) : (s.withNow t).asmCount = s.asmCount := rfl
@[simp] theorem State.withNow_asmLen (s : State) (t : Tick) : (s.withNow t).asmLen = s.asmLen := rfl
@[simp] theorem State.withNow_lastActivity (s : State) (t : Tick) : (s.withNow t).lastActivity = s.lastActivity := rfl
@[simp] theorem State.withNow_phase (s : State) (t : Tick) : (s.withNow t).phase = s.phase := rfl
@[simp] theorem State.withNow_out (s : State) (t : Tick) : (s.withNow t).out = s.out := rfl
@[simp] theorem State.withNow_now (s : State) (t : Tick) : (s.withNow t).now = t := rfl
@[simp] theorem State.withNow_result (s : State) (t : Tick) : (s.withNow t).result = s.result := rfl
@[simp] theorem State.withNow_pending (s : State) (t : Tick) : (s.withNow t).pending = s.pending := rfl

/-! ## `State.withResult` -/

@[simp] theorem State.withResult_x (s : State) (r : PortResult) : (s.withResult r).x = s.x := rfl
@[simp] theorem State.withResult_fifoBuf (s : State) (r : PortResult) : (s.withResult r).fifoBuf = s.fifoBuf := rfl
@[simp] theorem State.withResult_fifoWr (s : State) (r : PortResult) : (s.withResult r).fifoWr = s.fifoWr := rfl
@[simp] theorem State.withResult_fifoRd (s : State) (r : PortResult) : (s.withResult r).fifoRd = s.fifoRd := rfl
@[simp] theorem State.withResult_overflow (s : State) (r : PortResult) : (s.withResult r).overflow = s.overflow := rfl
@[simp] theorem State.withResult_asm (s : State) (r : PortResult) : (s.withResult r).asm = s.asm := rfl
@[simp] theorem State.withResult_asmCount (s : State) (r : PortResult) : (s.withResult r).asmCount = s.asmCount := rfl
@[simp] theorem State.withResult_asmLen (s : State) (r : PortResult) : (s.withResult r).asmLen = s.asmLen := rfl
@[simp] theorem State.withResult_lastActivity (s : State) (r : PortResult) : (s.withResult r).lastActivity = s.lastActivity := rfl
@[simp] theorem State.withResult_phase (s : State) (r : PortResult) : (s.withResult r).phase = s.phase := rfl
@[simp] theorem State.withResult_out (s : State) (r : PortResult) : (s.withResult r).out = s.out := rfl
@[simp] theorem State.withResult_now (s : State) (r : PortResult) : (s.withResult r).now = s.now := rfl
@[simp] theorem State.withResult_result (s : State) (r : PortResult) : (s.withResult r).result = r := rfl
@[simp] theorem State.withResult_pending (s : State) (r : PortResult) : (s.withResult r).pending = s.pending := rfl

/-! ## `State.withPending` -/

@[simp] theorem State.withPending_x (s : State) (es : List Event) : (s.withPending es).x = s.x := rfl
@[simp] theorem State.withPending_fifoBuf (s : State) (es : List Event) : (s.withPending es).fifoBuf = s.fifoBuf := rfl
@[simp] theorem State.withPending_fifoWr (s : State) (es : List Event) : (s.withPending es).fifoWr = s.fifoWr := rfl
@[simp] theorem State.withPending_fifoRd (s : State) (es : List Event) : (s.withPending es).fifoRd = s.fifoRd := rfl
@[simp] theorem State.withPending_overflow (s : State) (es : List Event) : (s.withPending es).overflow = s.overflow := rfl
@[simp] theorem State.withPending_asm (s : State) (es : List Event) : (s.withPending es).asm = s.asm := rfl
@[simp] theorem State.withPending_asmCount (s : State) (es : List Event) : (s.withPending es).asmCount = s.asmCount := rfl
@[simp] theorem State.withPending_asmLen (s : State) (es : List Event) : (s.withPending es).asmLen = s.asmLen := rfl
@[simp] theorem State.withPending_lastActivity (s : State) (es : List Event) : (s.withPending es).lastActivity = s.lastActivity := rfl
@[simp] theorem State.withPending_phase (s : State) (es : List Event) : (s.withPending es).phase = s.phase := rfl
@[simp] theorem State.withPending_out (s : State) (es : List Event) : (s.withPending es).out = s.out := rfl
@[simp] theorem State.withPending_now (s : State) (es : List Event) : (s.withPending es).now = s.now := rfl
@[simp] theorem State.withPending_result (s : State) (es : List Event) : (s.withPending es).result = s.result := rfl
@[simp] theorem State.withPending_pending (s : State) (es : List Event) : (s.withPending es).pending = es := rfl

/-! ## `State.append` -/

@[simp] theorem State.append_x (s : State) (os : List Output) : (s.append os).x = s.x := rfl
@[simp] theorem State.append_fifoBuf (s : State) (os : List Output) : (s.append os).fifoBuf = s.fifoBuf := rfl
@[simp] theorem State.append_fifoWr (s : State) (os : List Output) : (s.append os).fifoWr = s.fifoWr := rfl
@[simp] theorem State.append_fifoRd (s : State) (os : List Output) : (s.append os).fifoRd = s.fifoRd := rfl
@[simp] theorem State.append_overflow (s : State) (os : List Output) : (s.append os).overflow = s.overflow := rfl
@[simp] theorem State.append_asm (s : State) (os : List Output) : (s.append os).asm = s.asm := rfl
@[simp] theorem State.append_asmCount (s : State) (os : List Output) : (s.append os).asmCount = s.asmCount := rfl
@[simp] theorem State.append_asmLen (s : State) (os : List Output) : (s.append os).asmLen = s.asmLen := rfl
@[simp] theorem State.append_lastActivity (s : State) (os : List Output) : (s.append os).lastActivity = s.lastActivity := rfl
@[simp] theorem State.append_phase (s : State) (os : List Output) : (s.append os).phase = s.phase := rfl
@[simp] theorem State.append_out (s : State) (os : List Output) : (s.append os).out = s.out ++ os := rfl
@[simp] theorem State.append_now (s : State) (os : List Output) : (s.append os).now = s.now := rfl
@[simp] theorem State.append_result (s : State) (os : List Output) : (s.append os).result = s.result := rfl
@[simp] theorem State.append_pending (s : State) (os : List Output) : (s.append os).pending = s.pending := rfl

/-! ## The views of the output list -/

@[simp] theorem State.tx_append (s : State) (os : List Output) :
    (s.append os).tx = s.tx ++ os.filterMap Output.txPart := by
  simp [State.tx]

@[simp] theorem State.act_append (s : State) (os : List Output) :
    (s.append os).act = s.act ++ os.filterMap Output.actPart := by
  simp [State.act]

/-- A run of bytes is all `tx`. -/
@[simp] theorem txPart_bytes (bs : List Byte) :
    (bs.map Output.byte).filterMap Output.txPart = bs := by
  induction bs with
  | nil => rfl
  | cons b bs ih => simp [Output.txPart, ih]

/-- A run of bytes holds no action. -/
@[simp] theorem actPart_bytes (bs : List Byte) :
    (bs.map Output.byte).filterMap Output.actPart = [] := by
  simp [Output.actPart]

/-- A run of actions holds no byte. -/
@[simp] theorem txPart_actions (as : List Action) :
    (as.map Output.action).filterMap Output.txPart = [] := by
  simp [Output.txPart]

/-- A run of actions is all `act`. -/
@[simp] theorem actPart_actions (as : List Action) :
    (as.map Output.action).filterMap Output.actPart = as := by
  induction as with
  | nil => rfl
  | cons a as ih => simp [Output.actPart, ih]

@[simp] theorem State.append_nil (s : State) : s.append [] = s := by
  simp [State.append]

@[simp] theorem State.append_append (s : State) (os ps : List Output) :
    (s.append os).append ps = s.append (os ++ ps) := by
  simp [State.append]

/-- Outputs and a register write do not interfere. -/
theorem State.withX_append (s : State) (os : List Output) (x : Regs) :
    (s.append os).withX x = (s.withX x).append os := rfl

/-! ## The two output streams -/

@[simp] theorem State.withX_tx (s : State) (x : Regs) : (s.withX x).tx = s.tx := rfl
@[simp] theorem State.withX_act (s : State) (x : Regs) : (s.withX x).act = s.act := rfl
@[simp] theorem State.withFifoIn_tx (s : State) (buf : Memory) (wr : Cursor) : (s.withFifoIn buf wr).tx = s.tx := rfl
@[simp] theorem State.withFifoIn_act (s : State) (buf : Memory) (wr : Cursor) : (s.withFifoIn buf wr).act = s.act := rfl
@[simp] theorem State.withFifoRd_tx (s : State) (rd : Cursor) : (s.withFifoRd rd).tx = s.tx := rfl
@[simp] theorem State.withFifoRd_act (s : State) (rd : Cursor) : (s.withFifoRd rd).act = s.act := rfl
@[simp] theorem State.withOverflow_tx (s : State) (b : Bool) : (s.withOverflow b).tx = s.tx := rfl
@[simp] theorem State.withOverflow_act (s : State) (b : Bool) : (s.withOverflow b).act = s.act := rfl
@[simp] theorem State.withAsm_tx (s : State) (m : Memory) (len : AsmLen) : (s.withAsm m len).tx = s.tx := rfl
@[simp] theorem State.withAsm_act (s : State) (m : Memory) (len : AsmLen) : (s.withAsm m len).act = s.act := rfl
@[simp] theorem State.withActivity_tx (s : State) (t : Tick) : (s.withActivity t).tx = s.tx := rfl
@[simp] theorem State.withActivity_act (s : State) (t : Tick) : (s.withActivity t).act = s.act := rfl
@[simp] theorem State.withPhase_tx (s : State) (ph : Phase) : (s.withPhase ph).tx = s.tx := rfl
@[simp] theorem State.withPhase_act (s : State) (ph : Phase) : (s.withPhase ph).act = s.act := rfl
@[simp] theorem State.withNow_tx (s : State) (t : Tick) : (s.withNow t).tx = s.tx := rfl
@[simp] theorem State.withNow_act (s : State) (t : Tick) : (s.withNow t).act = s.act := rfl
@[simp] theorem State.withResult_tx (s : State) (r : PortResult) : (s.withResult r).tx = s.tx := rfl
@[simp] theorem State.withResult_act (s : State) (r : PortResult) : (s.withResult r).act = s.act := rfl
@[simp] theorem State.withPending_tx (s : State) (es : List Event) : (s.withPending es).tx = s.tx := rfl
@[simp] theorem State.withPending_act (s : State) (es : List Event) : (s.withPending es).act = s.act := rfl

end Sys2Proof.Machine
end

