-- ==== Sys2Proof/Laws/Ops.lean ====
section
/-! SUPPORT. What each shared operation can do, once: the register table, the assembly buffer, the
Resync procedure, `RegSet`. -/

namespace Sys2Proof

/-! ## The register id map -/

@[simp] theorem RegId.ofNum_num (r : RegId) : RegId.ofNum r.num = some r := by
  cases r <;> rfl

/-- The ids are the numbers 0 to 11 (R31, R21). -/
theorem RegId.ofNum_cases (n : Nat) :
    (∃ r : RegId, r.num = n ∧ RegId.ofNum n = some r) ∨ (12 ≤ n ∧ RegId.ofNum n = none) := by
  rcases Nat.lt_or_ge n 12 with h | h
  · refine .inl ?_
    interval_cases n
    exacts [⟨.unassigned0, rfl, rfl⟩, ⟨.powerOff, rfl, rfl⟩, ⟨.setAlarm, rfl, rfl⟩,
      ⟨.deleteAlarm, rfl, rfl⟩, ⟨.execShortcut, rfl, rfl⟩, ⟨.setUtc, rfl, rfl⟩,
      ⟨.unassigned6, rfl, rfl⟩, ⟨.heatStatus, rfl, rfl⟩, ⟨.heatLevel, rfl, rfl⟩,
      ⟨.heatTimer, rfl, rfl⟩, ⟨.shortcut1, rfl, rfl⟩, ⟨.shortcut2, rfl, rfl⟩]
  · refine .inr ⟨h, ?_⟩
    obtain ⟨k, rfl⟩ := Nat.exists_eq_add_of_le' h
    rfl

theorem RegId.num_of_ofNum {n : Nat} {r : RegId} (h : RegId.ofNum n = some r) : r.num = n := by
  rcases RegId.ofNum_cases n with ⟨r', hr', he⟩ | ⟨_, he⟩
  · rw [he] at h; cases h; exact hr'
  · rw [he] at h; cases h

theorem RegId.num_injective {r r' : RegId} (h : r.num = r'.num) : r = r' := by
  have := RegId.ofNum_num r
  rw [h, RegId.ofNum_num] at this
  exact (Option.some.inj this).symm

theorem RegId.num_lt (r : RegId) : r.num < 12 := by
  cases r <;> decide

theorem RegId.stored_iff (r : RegId) : r.stored = true ↔ 7 ≤ r.num := by
  exact decide_eq_true_iff

end Sys2Proof

namespace Sys2Proof.Machine

/-! ## The register table -/

/-- A stored slot reads back what was put into it (R22). -/
theorem Regs.get_set_same (x : Regs) {r : RegId} (v : Word) (h : r.stored = true) :
    (x.set r v).get r = v := by
  cases r <;> first | rfl | exact absurd h (by decide)

/-- Every other slot keeps its value. -/
theorem Regs.get_set_ne (x : Regs) {r r' : RegId} (v : Word) (h : r' ≠ r) :
    (x.set r v).get r' = x.get r' := by
  cases r <;> cases r' <;> first | rfl | exact absurd rfl h

/-- An id without a slot stores nothing (R23). -/
theorem Regs.set_not_stored (x : Regs) {r : RegId} (v : Word) (h : r.stored = false) :
    x.set r v = x := by
  cases r <;> first | rfl | exact absurd h (by decide)

/-- An id without a slot reads 0 (R23). -/
theorem Regs.get_not_stored (x : Regs) {r : RegId} (h : r.stored = false) : x.get r = 0 := by
  cases r <;> first | rfl | exact absurd h (by decide)

/-- Two tables that agree on every id are equal. -/
theorem Regs.ext_get {x y : Regs} (h : ∀ r, x.get r = y.get r) : x = y := by
  cases x; cases y
  have h7 := h .heatStatus
  have h8 := h .heatLevel
  have h9 := h .heatTimer
  have h10 := h .shortcut1
  have h11 := h .shortcut2
  simp only [Regs.get] at h7 h8 h9 h10 h11
  simp [h7, h8, h9, h10, h11]

@[simp] theorem Regs.at_num (x : Regs) (r : RegId) : x.at r.num = x.get r := by
  simp [Regs.at]

/-- Undefined ids read 0 (R23). -/
theorem Regs.at_of_ge (x : Regs) {n : Nat} (h : 12 ≤ n) : x.at n = 0 := by
  rcases RegId.ofNum_cases n with ⟨r, hr, _⟩ | ⟨_, he⟩
  · have := r.num_lt; omega
  · simp [Regs.at, he]

/-- Ids below the threshold read 0 (R23, R31). -/
theorem Regs.at_of_lt (x : Regs) {n : Nat} (h : n < 7) : x.at n = 0 := by
  rcases RegId.ofNum_cases n with ⟨r, hr, _⟩ | ⟨hge, _⟩
  · subst hr
    rw [Regs.at_num]
    refine Regs.get_not_stored x ?_
    rw [Bool.eq_false_iff, ne_eq, RegId.stored_iff]
    omega
  · omega

/-! ## Outputs -/

@[simp] theorem emitAll_nil (s : State) : emitAll [] s = s := by
  simp [emitAll]

theorem emitAll_eq (as : List Action) (s : State) : emitAll as s = s.append (as.map .action) := rfl

theorem emit_eq (a : Action) (s : State) : emit a s = s.append [.action a] := rfl

theorem txBytes_eq (bs : List Byte) (s : State) : txBytes bs s = s.append (bs.map .byte) := rfl

/-! ## `RegSet` (R242 to R244) -/

/-- What `RegSet` can do: change one stored slot and emit its actions, or nothing. -/
theorem regSet_cases (p : Params) (id v : Word) (s : State) :
    (∃ r : RegId, r.num = id.toNat ∧ r.stored = true ∧ s.x.get r ≠ v ∧
      regSetChanges id v s = true ∧
      regSet p id v s = (s.withX (s.x.set r v)).append ((sideEffect p r v).map .action)) ∨
    ((∀ r : RegId, r.num = id.toNat → r.stored = true → s.x.get r = v) ∧
      regSetChanges id v s = false ∧ regSet p id v s = s) := by
  unfold regSet regSetChanges
  rcases RegId.ofNum_cases id.toNat with ⟨r, hr, he⟩ | ⟨hge, he⟩
  · simp only [he]
    by_cases hs : r.stored = true
    · by_cases hv : s.x.get r = v
      · refine .inr ⟨fun r' hr' _ => ?_, ?_, ?_⟩
        · rw [RegId.num_injective (hr'.trans hr.symm), hv]
        · simp [hv]
        · simp [hv]
      · exact .inl ⟨r, hr, hs, hv, by simp [hs, hv], by simp [hs, hv, emitAll_eq]⟩
    · refine .inr ⟨fun r' hr' hs' => ?_, ?_, ?_⟩
      · rw [RegId.num_injective (hr'.trans hr.symm)] at hs'
        exact absurd hs' hs
      · simp [hs]
      · simp [hs]
  · simp only [he]
    refine .inr ⟨fun r hr _ => absurd r.num_lt (by omega), by simp, by simp⟩

/-- `RegSet` on the id of a stored register. -/
theorem writeStored_eq (p : Params) {r : RegId} (v : Word) (s : State) (hs : r.stored = true) :
    writeStored p r v s =
      if s.x.get r = v then s
      else (s.withX (s.x.set r v)).append ((sideEffect p r v).map .action) := by
  have hn : (BitVec.ofNat 16 r.num).toNat = r.num := by
    have := r.num_lt
    simp only [BitVec.toNat_ofNat]
    omega
  simp only [writeStored, regSet, hn, RegId.ofNum_num, hs, Bool.true_and, decide_not]
  by_cases hv : s.x.get r = v <;> simp [hv, emitAll_eq]

/-! ## Shape: everything a command does is a function of the register table -/

/-- `t` is `s` with another register table and more outputs: all a command can do to the state. -/
def Extends (s t : State) : Prop :=
  ∃ (x : Regs) (os : List Output), t = (s.withX x).append os

/-- The operation reads nothing but the register table, and writes nothing but the register table
and the outputs. -/
def ReadsRegistersOnly (f : State → State) : Prop :=
  ∃ (g : Regs → Regs) (o : Regs → List Output), ∀ s, f s = (s.withX (g s.x)).append (o s.x)

theorem ReadsRegistersOnly.extends {f : State → State} (h : ReadsRegistersOnly f) (s : State) :
    Extends s (f s) := by
  obtain ⟨g, o, h⟩ := h
  exact ⟨_, _, h s⟩

theorem ReadsRegistersOnly.congr {f f' : State → State} (h : ReadsRegistersOnly f)
    (he : ∀ s, f' s = f s) : ReadsRegistersOnly f' := by
  obtain ⟨g, o, h⟩ := h
  exact ⟨g, o, fun s => (he s).trans (h s)⟩

theorem ReadsRegistersOnly.skip : ReadsRegistersOnly fun s => s :=
  ⟨fun x => x, fun _ => [], fun s => by simp [State.withX]⟩

theorem ReadsRegistersOnly.append (o : Regs → List Output) :
    ReadsRegistersOnly fun s => s.append (o s.x) :=
  ⟨fun x => x, o, fun _ => rfl⟩

theorem ReadsRegistersOnly.comp {f f' : State → State} (h : ReadsRegistersOnly f)
    (h' : ReadsRegistersOnly f') : ReadsRegistersOnly fun s => f' (f s) := by
  obtain ⟨g, o, h⟩ := h
  obtain ⟨g', o', h'⟩ := h'
  exact ⟨fun x => g' (g x), fun x => o x ++ o' (g x), fun s => by
    simp only [h, h']
    simp [State.withX, State.append]⟩

theorem regSet_readsRegistersOnly (p : Params) (id v : Word) :
    ReadsRegistersOnly (regSet p id v) := by
  rcases RegId.ofNum_cases id.toNat with ⟨r, _, he⟩ | ⟨_, he⟩
  · refine ⟨fun x => if r.stored && decide (x.get r ≠ v) then x.set r v else x,
      fun x => if r.stored && decide (x.get r ≠ v) then (sideEffect p r v).map .action else [],
      fun s => ?_⟩
    simp only [regSet, he]
    split <;> simp_all [emitAll_eq, State.withX, State.append]
  · exact ⟨fun x => x, fun _ => [], fun s => by simp [regSet, he, State.withX]⟩

theorem writeStored_readsRegistersOnly (p : Params) (r : RegId) (v : Word) :
    ReadsRegistersOnly (writeStored p r v) :=
  regSet_readsRegistersOnly p _ v

theorem writeEntry_readsRegistersOnly (p : Params) (r : RegId) (data : List Byte) :
    ReadsRegistersOnly (writeEntry p r data) := by
  cases r <;>
    first
    | exact writeStored_readsRegistersOnly p _ _
    | exact ReadsRegistersOnly.append fun _ => _

theorem writeLoop_readsRegistersOnly (p : Params) (n id : Nat) (data : List Byte) :
    ReadsRegistersOnly (writeLoop p n id data) := by
  induction n generalizing id data with
  | zero => exact ReadsRegistersOnly.skip
  | succ n ih =>
    rcases RegId.ofNum_cases id with ⟨r, _, he⟩ | ⟨_, he⟩
    · have hw := writeEntry_readsRegistersOnly p r data
      by_cases hs : r.stored = true
      · exact (hw.comp (ih (id + 1) (data.drop 2))).congr fun s => by simp [writeLoop, he, hs]
      · exact hw.congr fun s => by simp [writeLoop, he, hs]
    · exact ReadsRegistersOnly.skip.congr fun s => by simp [writeLoop, he]

theorem readCommand_readsRegistersOnly (p : Params) (address count : Word) :
    ReadsRegistersOnly (readCommand p address count) := by
  by_cases h : readValid address count = true
  · refine (ReadsRegistersOnly.append fun x => (sealFrame p (rdrspBody
      (registerValues x address.toNat count.toNat))).map Output.byte ++ [.action .ack]).congr
        fun s => ?_
    rw [readCommand, if_pos h, emit_eq, sendReadResponse, txBytes_eq, State.append_append]
  · exact ReadsRegistersOnly.skip.congr fun s => by rw [readCommand, if_neg h]; rfl

theorem writeCommand_readsRegistersOnly (p : Params) (address count : Word) (data : List Byte) :
    ReadsRegistersOnly (writeCommand p address count data) := by
  by_cases h : writeValid address count data.length = true
  · refine ((writeLoop_readsRegistersOnly p count.toNat address.toNat data).comp
      (ReadsRegistersOnly.append fun _ =>
        (sealFrame p (wrrspBody address count)).map Output.byte ++ [.action .ack])).congr fun s => ?_
    rw [writeCommand, if_pos h, emit_eq, sendWriteResponse, txBytes_eq, State.append_append]
  · exact ReadsRegistersOnly.skip.congr fun s => by rw [writeCommand, if_neg h]; rfl

/-! ## The assembly buffer -/

@[simp] theorem asmBytes_length (s : State) : (asmBytes s).length = s.asmLen := by
  simp [asmBytes]

theorem asmBytes_congr {s t : State} (h : t.asm = s.asm) (h' : t.asmLen = s.asmLen) :
    asmBytes t = asmBytes s := by
  simp [asmBytes, h, h']

/-- The valid bytes after bytes are appended: those that fit follow (R160, R162). -/
theorem asmBytes_asmAppend {s : State} (bs : List Byte) (h : Memory.wf s.asm = true) :
    asmBytes (asmAppend bs s) = asmBytes s ++ bs.take (asmRoom s) := by
  simp only [asmBytes, asmAppend, State.withAsm_asm, State.withAsm_asmLen, memReadN_add]
  congr 1
  · exact memReadN_congr fun x _ hx => memRead_memWriteN_outside _ _ (by omega)
  · simpa only [Nat.zero_add] using memReadN_memWriteN s.asmLen (bs.take (asmRoom s)) h

@[simp] theorem asmAppend_asmLen (bs : List Byte) (s : State) :
    (asmAppend bs s).asmLen = s.asmLen + min (asmRoom s) bs.length :=
  congrArg (s.asmLen + ·) List.length_take

/-- The valid bytes after the first `k` are removed (R160, R175). -/
theorem asmBytes_asmDrop {s : State} (k : Nat) (h : Memory.wf s.asm = true) :
    asmBytes (asmDrop k s) = (asmBytes s).drop k := by
  have := memReadN_memWriteN (m := s.asm) 0 ((asmBytes s).drop k) h
  simpa [asmBytes, asmDrop] using this

/-! ### What the removal of bytes leaves alone -/

@[simp] theorem asmDrop_x (k : Nat) (s : State) : (asmDrop k s).x = s.x := rfl
@[simp] theorem asmDrop_fifoBuf (k : Nat) (s : State) : (asmDrop k s).fifoBuf = s.fifoBuf := rfl
@[simp] theorem asmDrop_fifoWr (k : Nat) (s : State) : (asmDrop k s).fifoWr = s.fifoWr := rfl
@[simp] theorem asmDrop_fifoRd (k : Nat) (s : State) : (asmDrop k s).fifoRd = s.fifoRd := rfl
@[simp] theorem asmDrop_overflow (k : Nat) (s : State) : (asmDrop k s).overflow = s.overflow := rfl
@[simp] theorem asmDrop_lastActivity (k : Nat) (s : State) : (asmDrop k s).lastActivity = s.lastActivity := rfl
@[simp] theorem asmDrop_phase (k : Nat) (s : State) : (asmDrop k s).phase = s.phase := rfl
@[simp] theorem asmDrop_out (k : Nat) (s : State) : (asmDrop k s).out = s.out := rfl
@[simp] theorem asmDrop_now (k : Nat) (s : State) : (asmDrop k s).now = s.now := rfl
@[simp] theorem asmDrop_result (k : Nat) (s : State) : (asmDrop k s).result = s.result := rfl
@[simp] theorem asmDrop_pending (k : Nat) (s : State) : (asmDrop k s).pending = s.pending := rfl
@[simp] theorem asmDrop_asmLen (k : Nat) (s : State) : (asmDrop k s).asmLen = s.asmLen - k := rfl

/-! ### What the removal of every byte leaves alone -/

@[simp] theorem asmClear_x (s : State) : (asmClear s).x = s.x := rfl
@[simp] theorem asmClear_fifoBuf (s : State) : (asmClear s).fifoBuf = s.fifoBuf := rfl
@[simp] theorem asmClear_fifoWr (s : State) : (asmClear s).fifoWr = s.fifoWr := rfl
@[simp] theorem asmClear_fifoRd (s : State) : (asmClear s).fifoRd = s.fifoRd := rfl
@[simp] theorem asmClear_overflow (s : State) : (asmClear s).overflow = s.overflow := rfl
@[simp] theorem asmClear_asm (s : State) : (asmClear s).asm = s.asm := rfl
@[simp] theorem asmClear_asmLen (s : State) : (asmClear s).asmLen = 0 := rfl
@[simp] theorem asmClear_lastActivity (s : State) : (asmClear s).lastActivity = s.lastActivity := rfl
@[simp] theorem asmClear_phase (s : State) : (asmClear s).phase = s.phase := rfl
@[simp] theorem asmClear_out (s : State) : (asmClear s).out = s.out := rfl
@[simp] theorem asmClear_now (s : State) : (asmClear s).now = s.now := rfl
@[simp] theorem asmClear_result (s : State) : (asmClear s).result = s.result := rfl
@[simp] theorem asmClear_pending (s : State) : (asmClear s).pending = s.pending := rfl

/-- With the buffer's length set to 0 nothing is pending. -/
theorem asmBytes_empty {s : State} (h : s.asmLen = 0) : asmBytes s = [] := by
  simp [asmBytes, h]

/-! ## The Resync procedure (R175) -/

/-- `firstMarker` finds the least offset of a marker. -/
theorem firstMarker_eq_some {bs : List Byte} {k : Nat} :
    firstMarker bs = some k ↔
      ∃ h : k < bs.length, bs[k] = Config.marker ∧
        ∀ j (hj : j < k), bs[j] ≠ Config.marker := by
  induction bs generalizing k with
  | nil => simp [firstMarker]
  | cons b bs ih =>
    unfold firstMarker
    split
    · next hb =>
      constructor
      · intro h
        cases h
        exact ⟨by simp, by simpa using hb, fun j hj => absurd hj (Nat.not_lt_zero j)⟩
      · rintro ⟨_, _, hmin⟩
        cases k with
        | zero => rfl
        | succ k => exact absurd hb (hmin 0 (Nat.succ_pos k))
    · next hb =>
      simp only [Option.map_eq_some_iff]
      constructor
      · rintro ⟨k', hk', rfl⟩
        obtain ⟨hlt, he, hmin⟩ := ih.1 hk'
        refine ⟨by simpa using hlt, by simpa using he, fun j hj => ?_⟩
        cases j with
        | zero => simpa using hb
        | succ j => simpa using hmin j (by omega)
      · rintro ⟨hlt, he, hmin⟩
        cases k with
        | zero => exact absurd (by simpa using he) hb
        | succ k =>
          refine ⟨k, ih.2 ⟨by simpa using hlt, by simpa using he, fun j hj => ?_⟩, rfl⟩
          simpa using hmin (j + 1) (by omega)

/-- `firstMarker` finds nothing where there is no marker. -/
theorem firstMarker_eq_none {bs : List Byte} :
    firstMarker bs = none ↔ Config.marker ∉ bs := by
  induction bs with
  | nil => simp [firstMarker]
  | cons b bs ih =>
    unfold firstMarker
    split
    · next hb => simp [hb]
    · next hb =>
      simp only [Option.map_eq_none_iff, ih, List.mem_cons, not_or]
      exact ⟨fun h => ⟨fun he => hb he.symm, h⟩, fun h => h.2⟩

/-- The scan of R175: the least `k` with `1 <= k` and a marker there. -/
theorem nextMarker_eq_some {bs : List Byte} {k : Nat} :
    nextMarker bs = some k ↔
      ∃ h : k < bs.length, 1 ≤ k ∧ bs[k] = Config.marker ∧
        ∀ j (hj : j < k), 1 ≤ j → bs[j] ≠ Config.marker := by
  simp only [nextMarker, Option.map_eq_some_iff, firstMarker_eq_some]
  constructor
  · rintro ⟨k', ⟨hlt, he, hmin⟩, rfl⟩
    simp only [List.length_drop] at hlt
    refine ⟨by omega, by omega, ?_, fun j hj h1 => ?_⟩
    · simpa [List.getElem_drop, Nat.add_comm] using he
    · have := hmin (j - 1) (by omega)
      simpa [List.getElem_drop, Nat.sub_add_cancel h1, Nat.add_comm 1] using this
  · rintro ⟨hlt, h1, he, hmin⟩
    refine ⟨k - 1, ⟨by simp only [List.length_drop]; omega, ?_, fun j hj => ?_⟩, by omega⟩
    · simpa [List.getElem_drop, Nat.sub_add_cancel h1, Nat.add_comm 1] using he
    · have := hmin (j + 1) (by omega) (by omega)
      simpa [List.getElem_drop, Nat.add_comm] using this

/-- The scan finds nothing exactly where bytes 1 and on hold no marker. -/
theorem nextMarker_eq_none {bs : List Byte} :
    nextMarker bs = none ↔ Config.marker ∉ bs.drop 1 := by
  simp [nextMarker, firstMarker_eq_none]

/-- What the Resync procedure can do (R176, R177). -/
theorem resyncProc_cases (p : Params) (s : State) :
    (∃ k, nextMarker (asmBytes s) = some k ∧ 1 ≤ k ∧ k < s.asmLen ∧
      resyncProc p s = (asmDrop k s).withActivity s.now) ∨
    (nextMarker (asmBytes s) = none ∧
      resyncProc p s =
        asmClear (s.append (if p.echoDiscard then (asmBytes s).map .byte else []))) := by
  unfold resyncProc
  cases h : nextMarker (asmBytes s) with
  | some k =>
    obtain ⟨hlt, h1, _⟩ := nextMarker_eq_some.1 h
    exact .inl ⟨k, rfl, h1, by simpa using hlt, rfl⟩
  | none =>
    refine .inr ⟨rfl, ?_⟩
    unfold discardAll
    cases p.echoDiscard <;> simp [txBytes_eq]

/-- What taking a frame error can do, whatever its kind: realign on the next marker and restart the
timeout, or discard every byte; and the phase is `Accumulating` again (R175 to R177, R317). -/
theorem takeFrameError_cases (p : Params) (e : FrameError) (s : State) :
    (∃ k, nextMarker (asmBytes s) = some k ∧ 1 ≤ k ∧ k < s.asmLen ∧
      takeFrameError p e s = ((asmDrop k s).withActivity s.now).withPhase .accumulating) ∨
    (nextMarker (asmBytes s) = none ∧
      takeFrameError p e s = (asmClear (s.append (if p.echoDiscard then (asmBytes s).map .byte
        else []))).withPhase .accumulating) := by
  unfold takeFrameError returnToAccumulating
  have hb : asmBytes (s.withPhase .resync) = asmBytes s := rfl
  rcases resyncProc_cases p (s.withPhase .resync) with ⟨k, hk, h1, hlt, he⟩ | ⟨hk, he⟩
  · exact .inl ⟨k, hb ▸ hk, h1, hlt, by rw [he]; rfl⟩
  · exact .inr ⟨hb ▸ hk, by rw [he, hb]; rfl⟩

end Sys2Proof.Machine
end

