-- ==== Sys2Proof/Laws/PerInstr.lean ====
section
/-! SUPPORT. Facts about every instruction as syntax, one lemma per constructor. -/

namespace Sys2Proof.Laws

/-- A well-formed instruction has an encoding of at least two bytes (the word of its opcode table
row) that fits the longest frame, `9 + 255` bytes (R97). -/
def EncodingFits.Statement (i : Instr) : Prop :=
  ∀ p : Params, i.wf = true →
    2 ≤ (encode p i).length ∧ (encode p i).length ≤ Config.maxFrame

/-- A list of a known length fits. -/
theorem fits_of_length {l : List Byte} {n : Nat} (h : l.length = n) (h2 : 2 ≤ n)
    (hm : n ≤ Config.maxFrame) : 2 ≤ l.length ∧ l.length ≤ Config.maxFrame := by
  omega

theorem EncodingFits.rdreq (address count : Word) :
    EncodingFits.Statement (.rdreq address count) := fun _ _ =>
  fits_of_length (n := 8) rfl (by decide) (by decide)

theorem EncodingFits.wrreq (address count : Word) (data : List Byte) :
    EncodingFits.Statement (.wrreq address count data) := by
  intro p h
  have hd : data.length ≤ 255 := by simpa [Instr.wf] using h
  have hl : (encode p (.wrreq address count data)).length = 9 + data.length := by
    simp [encode, sealFrame, wrrspBody]; omega
  unfold Config.maxFrame
  omega

theorem EncodingFits.rdrsp (values : List Word) : EncodingFits.Statement (.rdrsp values) := by
  intro p h
  have hv : 1 ≤ values.length ∧ values.length ≤ 127 := by simpa [Instr.wf] using h
  have hl : (encode p (.rdrsp values)).length = 5 + 2 * values.length := by
    simp [encode, sealFrame, rdrspBody]; omega
  unfold Config.maxFrame
  omega

theorem EncodingFits.wrrsp (address count : Word) :
    EncodingFits.Statement (.wrrsp address count) := fun _ _ =>
  fits_of_length (n := 8) rfl (by decide) (by decide)

theorem EncodingFits.upload : EncodingFits.Statement .upload := fun _ _ =>
  fits_of_length (n := 3) rfl (by decide) (by decide)

theorem EncodingFits.regUnassigned0 (v : Word) : EncodingFits.Statement (.regUnassigned0 v) := fun _ _ =>
  fits_of_length (n := 4) rfl (by decide) (by decide)

theorem EncodingFits.regPowerOff (v : Word) : EncodingFits.Statement (.regPowerOff v) := fun _ _ =>
  fits_of_length (n := 4) rfl (by decide) (by decide)

theorem EncodingFits.regSetAlarm (h0 h1 : Word) : EncodingFits.Statement (.regSetAlarm h0 h1) := fun _ _ =>
  fits_of_length (n := 6) rfl (by decide) (by decide)

theorem EncodingFits.regDeleteAlarm (v : Word) : EncodingFits.Statement (.regDeleteAlarm v) := fun _ _ =>
  fits_of_length (n := 4) rfl (by decide) (by decide)

theorem EncodingFits.regExecShortcut (v : Word) : EncodingFits.Statement (.regExecShortcut v) := fun _ _ =>
  fits_of_length (n := 4) rfl (by decide) (by decide)

theorem EncodingFits.regSetUtc (ts : Word32) : EncodingFits.Statement (.regSetUtc ts) := fun _ _ =>
  fits_of_length (n := 6) rfl (by decide) (by decide)

theorem EncodingFits.regUnassigned6 (v : Word) : EncodingFits.Statement (.regUnassigned6 v) := fun _ _ =>
  fits_of_length (n := 4) rfl (by decide) (by decide)

theorem EncodingFits.regHeatStatus (v : Word) : EncodingFits.Statement (.regHeatStatus v) := fun _ _ =>
  fits_of_length (n := 4) rfl (by decide) (by decide)

theorem EncodingFits.regHeatLevel (v : Word) : EncodingFits.Statement (.regHeatLevel v) := fun _ _ =>
  fits_of_length (n := 4) rfl (by decide) (by decide)

theorem EncodingFits.regHeatTimer (v : Word) : EncodingFits.Statement (.regHeatTimer v) := fun _ _ =>
  fits_of_length (n := 4) rfl (by decide) (by decide)

theorem EncodingFits.regShortcut1 (v : Word) : EncodingFits.Statement (.regShortcut1 v) := fun _ _ =>
  fits_of_length (n := 4) rfl (by decide) (by decide)

theorem EncodingFits.regShortcut2 (v : Word) : EncodingFits.Statement (.regShortcut2 v) := fun _ _ =>
  fits_of_length (n := 4) rfl (by decide) (by decide)

end Sys2Proof.Laws
end

