-- ==== Sys2Proof/Laws/Step.lean ====
section
/-! SUPPORT. What `exec`, the FIFO, a decode attempt, a poll and a step can do, once each. -/

namespace Sys2Proof.Machine

/-! ## Validity of a request (R203, R211) -/

theorem readValid_iff (address count : Word) :
    readValid address count = true ↔ readConditions address count := by
  simp only [readValid, Bool.and_eq_true, decide_eq_true_eq, and_assoc]
  rfl

theorem writeValid_iff (address count : Word) (ll : Nat) :
    writeValid address count ll = true ↔ writeConditions address count ll := by
  simp only [writeValid, Bool.and_eq_true, Bool.or_eq_true, Bool.not_eq_true', Bool.or_eq_false_iff,
    decide_eq_true_eq, decide_eq_false_iff_not, and_assoc]
  unfold writeConditions
  simp only [Config.regEnd, Config.refThreshold, Config.nStored, Config.idSetAlarm,
    Config.idSetUtc]
  omega

/-! ## `exec` -/

/-- Every instruction answers a next state, and what it does reads the register table only. -/
theorem exec_readsRegistersOnly (i : Instr) :
    ∃ f : State → State, (∀ s, exec i s = .next (f s)) ∧ ReadsRegistersOnly f := by
  cases i with
  | rdreq a c => exact ⟨_, fun _ => rfl, readCommand_readsRegistersOnly _ a c⟩
  | wrreq a c d => exact ⟨_, fun _ => rfl, writeCommand_readsRegistersOnly _ a c d⟩
  | rdrsp vs => exact ⟨_, fun _ => rfl, ReadsRegistersOnly.append fun _ => _⟩
  | wrrsp a c => exact ⟨_, fun _ => rfl, ReadsRegistersOnly.append fun _ => _⟩
  | upload => exact ⟨_, fun _ => rfl, ReadsRegistersOnly.append fun x => (sealFrame Config.params (rdrspBody
      (registerValues x Config.uploadBase Config.uploadCount))).map Output.byte⟩
  | regUnassigned0 v => exact ⟨_, fun _ => rfl, ReadsRegistersOnly.append fun _ => _⟩
  | regPowerOff v => exact ⟨_, fun _ => rfl, ReadsRegistersOnly.append fun _ => _⟩
  | regSetAlarm h0 h1 => exact ⟨_, fun _ => rfl, ReadsRegistersOnly.append fun _ => _⟩
  | regDeleteAlarm v => exact ⟨_, fun _ => rfl, ReadsRegistersOnly.append fun _ => _⟩
  | regExecShortcut v => exact ⟨_, fun _ => rfl, ReadsRegistersOnly.append fun _ => _⟩
  | regSetUtc ts => exact ⟨_, fun _ => rfl, ReadsRegistersOnly.append fun _ => _⟩
  | regUnassigned6 v => exact ⟨_, fun _ => rfl, ReadsRegistersOnly.append fun _ => _⟩
  | regHeatStatus v => exact ⟨_, fun _ => rfl, writeStored_readsRegistersOnly _ _ v⟩
  | regHeatLevel v => exact ⟨_, fun _ => rfl, writeStored_readsRegistersOnly _ _ v⟩
  | regHeatTimer v => exact ⟨_, fun _ => rfl, writeStored_readsRegistersOnly _ _ v⟩
  | regShortcut1 v => exact ⟨_, fun _ => rfl, writeStored_readsRegistersOnly _ _ v⟩
  | regShortcut2 v => exact ⟨_, fun _ => rfl, writeStored_readsRegistersOnly _ _ v⟩

/-- Every instruction answers a next state that differs in the register table and the outputs
only. -/
theorem exec_extends (i : Instr) (s : State) : ∃ t, exec i s = .next t ∧ Extends s t := by
  obtain ⟨f, hf, h⟩ := exec_readsRegistersOnly i
  exact ⟨f s, hf s, h.extends s⟩

/-- States that agree on the register table and the outputs agree on them after an instruction. -/
theorem exec_congr {i : Instr} {s s' t : State} (hx : s'.x = s.x) (ho : s'.out = s.out)
    (h : exec i s = .next t) : ∃ t', exec i s' = .next t' ∧ t'.x = t.x ∧ t'.out = t.out := by
  obtain ⟨f, hf, g, o, hg⟩ := exec_readsRegistersOnly i
  rw [hf] at h
  cases h
  refine ⟨f s', hf s', ?_, ?_⟩ <;> simp [hg, hx, ho]

/-! ## The FIFO (R141 to R145) -/

@[simp] theorem fifoOldest_length (s : State) (n : Nat) : (fifoOldest s n).length = n := by
  simp [fifoOldest]

@[simp] theorem fifoQueue_length (s : State) : (fifoQueue s).length = fifoCount s := by
  simp [fifoQueue]

@[simp] theorem drainBytes_length (n : Nat) (s : State) :
    (drainBytes n s).length = drainCount n s := by
  simp [drainBytes]

/-- What a push can do: drop the byte and set the flag, or store it and clear the flag. -/
theorem push_cases (b : Byte) (s : State) :
    (Config.fifoCap ≤ fifoCount s ∧ push b s = s.withOverflow true) ∨
    (fifoCount s < Config.fifoCap ∧
      push b s = (s.withFifoIn (memWrite s.fifoBuf (slotOf s.fifoWr.toNat) b)
        (s.fifoWr + 1)).withOverflow false) := by
  unfold push overflowAfterPush fifoFull
  by_cases h : Config.fifoCap ≤ fifoCount s
  · exact .inl ⟨h, by simp [h]⟩
  · exact .inr ⟨by omega, by simp [h]⟩

/-! ## Part 1 of a poll (R161) -/

/-! ### The fields a poll's drain writes -/

/-- A poll's drain takes no more than the room left, so what it takes is appended whole (R162). -/
theorem drainBytes_take_room (s : State) :
    (drainBytes (asmRoom s) s).take (asmRoom s) = drainBytes (asmRoom s) s :=
  List.take_of_length_le (by simp [drainCount])

theorem pollDrain_asm (now : Tick) (s : State) :
    (pollDrain now s).asm = memWriteN s.asm s.asmLen (drainBytes (asmRoom s) s) :=
  congrArg (memWriteN s.asm s.asmLen) (drainBytes_take_room s)

theorem pollDrain_asmLen (now : Tick) (s : State) :
    (pollDrain now s).asmLen = s.asmLen + drainCount (asmRoom s) s :=
  (congrArg (s.asmLen + List.length ·) (drainBytes_take_room s)).trans (by simp)

theorem pollDrain_fifoRd (now : Tick) (s : State) :
    (pollDrain now s).fifoRd = s.fifoRd + BitVec.ofNat 10 (drainCount (asmRoom s) s) := rfl

theorem pollDrain_lastActivity (now : Tick) (s : State) :
    (pollDrain now s).lastActivity =
      if (drainBytes (asmRoom s) s).isEmpty then s.lastActivity else now := rfl

/-! ### What a poll's drain leaves alone -/

@[simp] theorem pollDrain_x (now : Tick) (s : State) :
    (pollDrain now s).x = s.x := rfl
@[simp] theorem pollDrain_fifoBuf (now : Tick) (s : State) :
    (pollDrain now s).fifoBuf = s.fifoBuf := rfl
@[simp] theorem pollDrain_fifoWr (now : Tick) (s : State) :
    (pollDrain now s).fifoWr = s.fifoWr := rfl
@[simp] theorem pollDrain_overflow (now : Tick) (s : State) :
    (pollDrain now s).overflow = s.overflow := rfl
@[simp] theorem pollDrain_phase (now : Tick) (s : State) :
    (pollDrain now s).phase = s.phase := rfl
@[simp] theorem pollDrain_out (now : Tick) (s : State) :
    (pollDrain now s).out = s.out := rfl
@[simp] theorem pollDrain_result (now : Tick) (s : State) :
    (pollDrain now s).result = s.result := rfl
@[simp] theorem pollDrain_pending (now : Tick) (s : State) :
    (pollDrain now s).pending = s.pending := rfl
@[simp] theorem pollDrain_now (now : Tick) (s : State) :
    (pollDrain now s).now = now := rfl

/-- The assembly buffer after a poll's drain: what was there, then the bytes taken (R161). -/
theorem asmBytes_pollDrain (now : Tick) {s : State} (h : Memory.wf s.asm = true) :
    asmBytes (pollDrain now s) = asmBytes s ++ drainBytes (asmRoom s) s :=
  (asmBytes_asmAppend (s := s) (drainBytes (asmRoom s) s) h).trans
    (congrArg (asmBytes s ++ ·) (drainBytes_take_room s))

/-- The ready test in numbers (R163). -/
theorem ready_iff (s : State) :
    ready s = true ↔
      s.asmLen ≠ 0 ∧ (100 ≤ (s.now - s.lastActivity).toNat ∨ s.asmLen = Config.asmCap) := by
  simp only [ready, timedOut, asmFull, Bool.and_eq_true, Bool.or_eq_true, decide_eq_true_eq]
  rfl

/-! ## A decode attempt (R172, R175) -/

/-- The state a retired frame leaves, all at once. -/
theorem retire_eq (len : Nat) (s : State) :
    retire len s = ((asmDrop len s).withActivity
      (if s.asmLen - len = 0 then s.lastActivity else s.now)).withPhase .accumulating := rfl

/-- What running the frame at `asm[0]` can do: run it and remove it, or take the frame error. -/
theorem runValidated_cases (s : State) :
    (∃ i len t, decode (asmBytes s) = .ok (i, len) ∧ exec i s = .next t ∧ Extends s t ∧
      runValidated s = .next (retire len t)) ∨
    (∃ e, decode (asmBytes s) = .error e ∧
      runValidated s = .next (takeFrameError Config.params e s)) := by
  unfold runValidated
  cases h : decode (asmBytes s) with
  | ok il =>
    obtain ⟨i, len⟩ := il
    obtain ⟨t, ht, hx⟩ := exec_extends i s
    exact .inl ⟨i, len, t, rfl, ht, hx, by simp only [ht]⟩
  | error e => exact .inr ⟨e, rfl, rfl⟩

/-- What a decode attempt in phase `FrameReady` can do. -/
theorem decodeAttempt_frameReady {s : State} (hphase : s.phase = .frameReady) :
    (∃ i len t, parse Config.params (asmBytes s) = .ok (i, len) ∧
      exec i (s.withPhase .validated) = .next t ∧ Extends (s.withPhase .validated) t ∧
      decodeAttempt s = .next (retire len t)) ∨
    (∃ e, parse Config.params (asmBytes s) = .error e ∧
      decodeAttempt s = .next (takeFrameError Config.params e s)) := by
  unfold decodeAttempt
  rw [hphase]
  simp only []
  cases h : parse Config.params (asmBytes s) with
  | ok il =>
    obtain ⟨i, len⟩ := il
    have hd := (parse_ok.1 h).1
    rcases runValidated_cases (s.withPhase .validated) with ⟨j, l, t, hj, ht, hx, hr⟩ | ⟨e, he, _⟩
    · have : decode (asmBytes s) = .ok (j, l) := hj
      rw [hd] at this
      cases this
      exact .inl ⟨i, len, t, rfl, ht, hx, hr⟩
    · have : decode (asmBytes s) = .error e := he
      rw [hd] at this
      cases this
  | error e => exact .inr ⟨e, rfl, rfl⟩

/-- A decode attempt always answers a next state (R300). -/
theorem decodeAttempt_next (s : State) : ∃ t, decodeAttempt s = .next t := by
  cases h : s.phase with
  | accumulating => exact ⟨s, by simp only [decodeAttempt, h]⟩
  | frameReady =>
    rcases decodeAttempt_frameReady h with ⟨_, _, _, _, _, _, hd⟩ | ⟨_, _, hd⟩ <;> exact ⟨_, hd⟩
  | validated =>
    have hd : decodeAttempt s = runValidated s := by simp only [decodeAttempt, h]
    rcases runValidated_cases s with ⟨_, _, _, _, _, _, hr⟩ | ⟨_, _, hr⟩ <;> exact ⟨_, hd.trans hr⟩
  | resync => exact ⟨_, by simp only [decodeAttempt, h]; rfl⟩

/-! ## A step -/

/-- A step between polls takes the oldest event. -/
theorem step_of_takes {s : State} {e : Event} {rest : List Event} (h : s.takes e rest) :
    step s = runEvent e (s.withPending rest) := by
  unfold step nextEvent
  rw [h.1, h.2]

/-- A legal call runs its operation. -/
theorem runEvent_call {ctx : Context} {op : PortOp} (h : (Event.call ctx op).legal = true)
    (s : State) : runEvent (.call ctx op) s = runOp op s := by
  have : ctx = contextOf op := of_decide_eq_true (Bool.and_eq_true_iff.1 h).1
  simp [runEvent, this]

/-- Of the port operations the block refuses a direct `Drain`, and only that; every other one answers a
next state (R270, R300, U14). -/
theorem runOp_cases (op : PortOp) (s : State) :
    (op.inBlock = false ∧ runOp op s = .refused .directDrain) ∨
    (op.inBlock = true ∧ ∃ t, runOp op s = .next t) := by
  cases op with
  | drain n => exact .inl ⟨rfl, rfl⟩
  | push b => exact .inr ⟨rfl, _, rfl⟩
  | regGet id => exact .inr ⟨rfl, _, rfl⟩
  | regSet id v => exact .inr ⟨rfl, _, rfl⟩
  | upload => exact .inr ⟨rfl, _, rfl⟩
  | poll now =>
    refine .inr ⟨rfl, ?_⟩
    simp only [runOp, poll]
    split
    · exact decodeAttempt_next _
    · exact ⟨_, rfl⟩

/-- A step in a state with no poll in progress: idle, a power-up, a refused call (one from the wrong
context, or a direct `Drain`), or one operation of the block's own ports. -/
theorem step_cases {s : State} (h : s.phase = .accumulating) :
    (s.pending = [] ∧ step s = .next s) ∨
    (∃ rest, s.pending = .powerUp :: rest ∧ step s = .next (State.reset.withPending rest)) ∨
    (∃ ctx op rest, s.pending = .call ctx op :: rest ∧ (Event.call ctx op).legal = false ∧
      step s = .refused (if ctx = contextOf op then .directDrain else .wrongContext)) ∨
    (∃ op rest, s.pending = .call (contextOf op) op :: rest ∧ op.inBlock = true ∧
      step s = runOp op (s.withPending rest)) := by
  unfold step nextEvent
  rw [h]
  simp only []
  cases hp : s.pending with
  | nil => exact .inl ⟨rfl, rfl⟩
  | cons e rest =>
    cases e with
    | powerUp => exact .inr (.inl ⟨rest, rfl, rfl⟩)
    | call ctx op =>
      by_cases hc : ctx = contextOf op
      · subst hc
        rcases runOp_cases op (s.withPending rest) with ⟨hb, hr⟩ | ⟨hb, _⟩
        · exact .inr (.inr (.inl ⟨_, op, rest, rfl, by simp [Event.legal, hb], by simp [runEvent, hr]⟩))
        · exact .inr (.inr (.inr ⟨op, rest, rfl, hb, by simp [runEvent]⟩))
      · exact .inr (.inr (.inl ⟨ctx, op, rest, rfl, by simp [Event.legal, hc],
          by simp [runEvent, hc]⟩))

/-! ## Runs -/

/-- A run peels off a step that answers a next state. -/
theorem run_succ_of_next {s t : State} (k : Nat) (h : step s = .next t) :
    Host.Core.run Sys2Proof.core (k + 1) s = Host.Core.run Sys2Proof.core k t := by
  have h' : Sys2Proof.core.step s = .next t := h
  simp only [Host.Core.run, h']

end Sys2Proof.Machine
end

