-- ==== Sys2Proof/Machine/Checksum.lean ====
section
/-! DEFINITION. The two test instantiations of `CK` (R133). Neither is claimed to be the reference
algorithm, and the machine runs neither: its `CK` is the uninterpreted `Config.ck`. -/

namespace Sys2Proof.Machine

/-- `CK_SUM(s)`: the sum of the bytes modulo 2^16 (R133). -/
def ckSum : List Byte → Word
  | [] => 0
  | b :: bs => b.setWidth 16 + ckSum bs

/-- One of the eight shifts of `CK_CRC` (R133). -/
def crcShift (c : Word) : Word :=
  if c.getLsbD 0 then (c >>> 1) ^^^ 0xA001#16 else c >>> 1

/-- One byte of `CK_CRC`: exclusive-ored into the low 8 bits, then eight shifts (R133). -/
def crcByte (c : Word) (b : Byte) : Word :=
  crcShift (crcShift (crcShift (crcShift (crcShift (crcShift (crcShift (crcShift
    (c ^^^ b.setWidth 16))))))))

/-- `CK_CRC(s)` (R133). -/
def ckCrc (s : List Byte) : Word :=
  s.foldl crcByte 0xFFFF#16

/-- The parameters of spec/95_test_vectors.md, but for `ASM_CAP`, which is 64 there: echo on; the temperature table there
is symbolic, and here the identity. -/
def vectorParams (ck : List Byte → Word) : Params where
  ck := ck
  tempTable := fun v => v
  echoDiscard := true

end Sys2Proof.Machine
end

