-- ==== Sys2Proof/Tests/Slice0.lean ====
section
/-! SUPPORT. Tests: expected values are those of spec/95_test_vectors.md (named in each comment) or
worked by hand from the encoding tables; then one witness for every statement that has hypotheses. -/

-- One theorem after the other: each kernel evaluation waits for all earlier ones, and a thread with it.
set_option Elab.async false

namespace Sys2Proof.Tests

open Sys2Proof.Machine

/-! ## Small states -/

/-- The next state of an outcome, if it is one. -/
def nextOf : Host.Outcome State Fault Refusal → Option State
  | .next t => some t
  | .fault _ => none
  | .refused _ => none

/-- The registers of spec/95_test_vectors.md section 2.4. -/
def vectorRegs : Regs :=
  { heatStatus := 0x0001, heatLevel := 0x0002, heatTimer := 0x001E, shortcut1 := 0x1234,
    shortcut2 := 0x0000 }

/-- Reset, with these registers. -/
def loaded (x : Regs) : State := State.reset.withX x

/-- Reset, with these events to come. -/
def asked (es : List Event) : State := State.reset.withPending es

/-- Reset, with the two cursors moved: the ring holds `wr - rd` zero bytes. -/
def ringAt (wr rd : Cursor) : State := (State.reset.withFifoIn [] wr).withFifoRd rd

/-- Reset, with these bytes in the assembly buffer and these events to come. -/
def holding (bs : List Byte) (es : List Event) : State :=
  (asmAppend bs State.reset).withPending es

/-- An alarm record, its fields in the order of R32. -/
def alarm (minute : BitVec 6) (hour alarmId : BitVec 5) (enabled repeats : Bool)
    (weekdays ringtone : BitVec 7) : AlarmRecord :=
  ⟨minute, hour, alarmId, enabled, repeats, weekdays, ringtone⟩

/-! ## WellFormed refuses what no frame can carry -/

theorem test_wf_refuses_256_data_bytes :
    (Instr.wrreq 7 1 (List.replicate 256 0)).wf = false := by decide +kernel

theorem test_wf_takes_255_data_bytes :
    (Instr.wrreq 7 1 (List.replicate 255 0)).wf = true := by decide +kernel

theorem test_wf_refuses_empty_response : (Instr.rdrsp []).wf = false := by decide +kernel

theorem test_wf_refuses_128_values :
    (Instr.rdrsp (List.replicate 128 0)).wf = false := by decide +kernel

/-! ## Decoding, on bytes written out from R92 to R95 and R31 -/

/-- V-R2: marker 01, command 03, address 0007, count 0005, checksum 0834. -/
theorem test_decode_rdreq :
    decode [0x01, 0x03, 0x00, 0x07, 0x00, 0x05, 0x08, 0x34] = .ok (.rdreq 7 5, 8) := by decide +kernel

/-- V-W4: 01 10, address 0008, count 0002, LL 04, data 0002 001E, checksum C1D3. -/
theorem test_decode_wrreq :
    decode [0x01, 0x10, 0x00, 0x08, 0x00, 0x02, 0x04, 0x00, 0x02, 0x00, 0x1E, 0xC1, 0xD3] =
      .ok (.wrreq 8 2 [0x00, 0x02, 0x00, 0x1E], 13) := by decide +kernel

/-- V-R2: 01 03, LL 0A, five values, checksum 52E6. -/
theorem test_decode_rdrsp :
    decodeResponse [0x01, 0x03, 0x0A, 0x00, 0x01, 0x00, 0x02, 0x00, 0x1E, 0x12, 0x34, 0x00, 0x00,
      0x52, 0xE6] = some (.rdrsp [0x0001, 0x0002, 0x001E, 0x1234, 0x0000]) := by decide +kernel

/-- V-W1: 01 10, address 0007, count 0001, checksum 08B0. -/
theorem test_decode_wrrsp :
    decodeResponse [0x01, 0x10, 0x00, 0x07, 0x00, 0x01, 0x08, 0xB0] = some (.wrrsp 7 1) := by
  decide +kernel

/-- R254: a command byte that is neither has no entry. -/
theorem test_request_no_entry :
    requestOf [0x01, 0x05, 0x00, 0x07, 0x00, 0x01, 0x08, 0x34] = none := by decide +kernel

/-- R211, R107, D16 against R97 (log 32): address 0, count 12, 24 data bytes is valid, one register
more is not. -/
theorem test_write_valid_longest :
    writeValid 0 12 24 = true ∧ writeValid 0 13 26 = false ∧ writeValid 2 10 20 = true := by
  decide +kernel

/-- R255: 01 03, LL 0C; the values are read when it is executed. -/
theorem test_encode_upload : encode (vectorParams ckCrc) .upload = [0x01, 0x03, 0x0C] := by decide +kernel

/-- R31, R99: every id with its payload bytes, high byte first. -/
theorem test_decode_entries :
    decodeEntry 0 [0x00, 0x09] = some (.regUnassigned0 0x0009) ∧
    decodeEntry 1 [0x00, 0x01] = some (.regPowerOff 0x0001) ∧
    decodeEntry 2 [0x19, 0xDE, 0x00, 0x15] = some (.regSetAlarm 0x19DE 0x0015) ∧
    decodeEntry 3 [0x01, 0x03] = some (.regDeleteAlarm 0x0103) ∧
    decodeEntry 4 [0x00, 0x01] = some (.regExecShortcut 0x0001) ∧
    decodeEntry 5 [0x65, 0x00, 0x00, 0x02] = some (.regSetUtc 0x65000002) := by decide +kernel

theorem test_decode_entries_above :
    decodeEntry 6 [0x00, 0x07] = some (.regUnassigned6 0x0007) ∧
    decodeEntry 7 [0x00, 0x01] = some (.regHeatStatus 0x0001) ∧
    decodeEntry 8 [0x00, 0x02] = some (.regHeatLevel 0x0002) ∧
    decodeEntry 9 [0x00, 0x1E] = some (.regHeatTimer 0x001E) ∧
    decodeEntry 10 [0x1E, 0x0A] = some (.regShortcut1 0x1E0A) ∧
    decodeEntry 11 [0x56, 0x78] = some (.regShortcut2 0x5678) ∧
    decodeEntry 12 [0x00, 0x01] = none := by decide +kernel

/-- The match words of the opcode table. -/
theorem test_table_words :
    decodeTableWord 16 0x0103 = some (.rdreq 0 0) ∧
    decodeTableWord 16 0x0110 = some (.wrreq 0 0 []) ∧
    decodeTableWord 16 0x0000 = some (.regUnassigned0 0) ∧
    decodeTableWord 16 0x0001 = some (.regPowerOff 0) ∧
    decodeTableWord 16 0x0002 = some (.regSetAlarm 0 0) ∧
    decodeTableWord 16 0x0003 = some (.regDeleteAlarm 0) ∧
    decodeTableWord 16 0x0004 = some (.regExecShortcut 0) := by decide +kernel

theorem test_table_words_above :
    decodeTableWord 16 0x0005 = some (.regSetUtc 0) ∧
    decodeTableWord 16 0x0006 = some (.regUnassigned6 0) ∧
    decodeTableWord 16 0x0007 = some (.regHeatStatus 0) ∧
    decodeTableWord 16 0x0008 = some (.regHeatLevel 0) ∧
    decodeTableWord 16 0x0009 = some (.regHeatTimer 0) ∧
    decodeTableWord 16 0x000A = some (.regShortcut1 0) ∧
    decodeTableWord 16 0x000B = some (.regShortcut2 0) ∧
    decodeTableWord 16 0x000C = none := by decide +kernel

/-! ## The checksum instantiations (V-C2, V-C3) -/

theorem test_ck_crc_check_value :
    ckCrc [0x31, 0x32, 0x33, 0x34, 0x35, 0x36, 0x37, 0x38, 0x39] = 0x4B37 := by decide +kernel

theorem test_ck_sum_check_value :
    ckSum [0x31, 0x32, 0x33, 0x34, 0x35, 0x36, 0x37, 0x38, 0x39] = 0x01DD := by decide +kernel

/-! ## One step of each instruction -/

/-- V-R2. -/
theorem test_rdreq_answers :
    (readCommand (vectorParams ckCrc) 7 5 (loaded vectorRegs)).tx =
      [0x01, 0x03, 0x0A, 0x00, 0x01, 0x00, 0x02, 0x00, 0x1E, 0x12, 0x34, 0x00, 0x00, 0x52, 0xE6] ∧
    (readCommand (vectorParams ckCrc) 7 5 (loaded vectorRegs)).act = [.ack] := by decide +kernel

/-- V-R3, V-R6: overrun, and no wrap of the address. -/
theorem test_rdreq_invalid :
    nextOf (exec (.rdreq 7 6) (loaded vectorRegs)) = some (loaded vectorRegs) ∧
    nextOf (exec (.rdreq 0xFFFF 2) (loaded vectorRegs)) = some (loaded vectorRegs) := by decide +kernel

/-- V-W4. -/
theorem test_wrreq_two_registers :
    let t := writeCommand (vectorParams ckCrc) 8 2 [0x00, 0x02, 0x00, 0x1E] State.reset
    t.x.heatLevel = 2 ∧ t.x.heatTimer = 30 ∧
    t.act = [.setHeatingLevel 2 2, .setHeatingTimer 1800, .setTimeDisplay, .ack] ∧
    t.tx = [0x01, 0x10, 0x00, 0x08, 0x00, 0x02, 0x0A, 0xC0] := by decide +kernel

/-- V-W12: the loop stops after id 4. -/
theorem test_wrreq_quirk :
    let t := writeCommand (vectorParams ckCrc) 4 4 [0x00, 0x01, 0x00, 0x00, 0x00, 0x00, 0x00, 0x01]
      State.reset
    t.x = State.reset.x ∧ t.act = [.execShortcut 1, .ack] ∧
    t.tx = [0x01, 0x10, 0x00, 0x04, 0x00, 0x04, 0x0B, 0x80] := by decide +kernel

/-- V-R8. -/
theorem test_rdrsp_bytes :
    (sendReadResponse (vectorParams ckCrc) [0, 0, 0, 0, 0] State.reset).tx =
      [0x01, 0x03, 0x0A, 0x00, 0x00, 0x00, 0x00, 0x00, 0x00, 0x00, 0x00, 0x00, 0x00, 0xB6, 0x24] := by
  decide +kernel

/-- V-W8, the response. -/
theorem test_wrrsp_bytes :
    (sendWriteResponse (vectorParams ckCrc) 5 2 State.reset).tx =
      [0x01, 0x10, 0x00, 0x05, 0x00, 0x02, 0xC9, 0x51] := by decide +kernel

/-- V-B13. -/
theorem test_upload_bytes :
    (upload (vectorParams ckCrc) (loaded vectorRegs)).tx =
      [0x01, 0x03, 0x0C, 0x00, 0x01, 0x00, 0x02, 0x00, 0x1E, 0x12, 0x34, 0x00, 0x00, 0x00, 0x00,
        0x5B, 0xC2] ∧
    (upload (vectorParams ckCrc) (loaded vectorRegs)).act = [] := by decide +kernel

/-- V-W13, V-W20. -/
theorem test_unassigned_ids :
    nextOf (exec (.regUnassigned0 9) State.reset) = some State.reset ∧
    nextOf (exec (.regUnassigned6 7) State.reset) = some State.reset := by decide +kernel

/-- V-W10, V-W11, V-W12. -/
theorem test_triggered_ids :
    (nextOf (exec (.regPowerOff 1) State.reset)).map State.act = some [.shutdown] ∧
    (nextOf (exec (.regDeleteAlarm 3) State.reset)).map State.act = some [.deleteAlarm 3] ∧
    (nextOf (exec (.regExecShortcut 1) State.reset)).map State.act = some [.execShortcut 1] := by
  decide +kernel

/-- V-W6. -/
theorem test_set_alarm :
    (nextOf (exec (.regSetAlarm 0x19DE 0x0015) State.reset)).map State.act =
      some [.setAlarm (alarm 30 7 3 true false 0x05 0)] := by decide +kernel

/-- V-W7. -/
theorem test_set_alarm_high_fields :
    (nextOf (exec (.regSetAlarm 0x19DE 0xABFF) State.reset)).map State.act =
      some [.setAlarm (alarm 30 7 3 true true 0x7F 0x55)] := by decide +kernel

/-- V-W8, V-W9: the sum wraps. -/
theorem test_set_utc :
    (nextOf (exec (.regSetUtc 0x65000000) State.reset)).map State.act =
      some [.setClock 0x65007080] ∧
    (nextOf (exec (.regSetUtc 0xFFFFFFFF) State.reset)).map State.act =
      some [.setClock 0x0000707F] := by decide +kernel

/-- V-B9, and V-W3 with the register set. -/
theorem test_heat_status :
    (nextOf (exec (.regHeatStatus 2) State.reset)).map State.act =
      some [.setHeatingActive true] ∧
    (nextOf (exec (.regHeatStatus 0) (loaded vectorRegs))).map State.act =
      some [.setHeatingActive false] := by decide +kernel

/-- V-W4, register 8; a level already held does nothing. -/
theorem test_heat_level :
    (nextOf (exec (.regHeatLevel 2) State.reset)).map (fun t => t.x.heatLevel) = some 2 ∧
    nextOf (exec (.regHeatLevel 2) (loaded vectorRegs)) = some (loaded vectorRegs) := by decide +kernel

/-- V-B10: 60 * 65535 in 32 bits; V-B6. -/
theorem test_heat_timer :
    (nextOf (exec (.regHeatTimer 0xFFFF) State.reset)).map State.act =
      some [.setHeatingTimer 3932100, .setTimeDisplay] ∧
    nextOf (exec (.regHeatTimer 0) State.reset) = some State.reset := by decide +kernel

/-- V-B11, V-W19: stored, no action, the other slot untouched. -/
theorem test_shortcut_slots :
    nextOf (exec (.regShortcut1 0x1E16) State.reset) =
      some (State.reset.withX { State.reset.x with shortcut1 := 0x1E16 }) ∧
    nextOf (exec (.regShortcut2 0x5678) State.reset) =
      some (State.reset.withX { State.reset.x with shortcut2 := 0x5678 }) := by decide +kernel

/-- V-B11: level 2, music 5, timer 30. -/
theorem test_decode_shortcut : decodeShortcut 0x1E16 = (2, 5, 30) := by decide +kernel

/-! ## The register ports (V-B2, V-B3, V-B7, V-B8) -/

theorem test_reg_get_without_slot :
    regGet 3 (loaded vectorRegs) = 0 ∧ regGet 12 (loaded vectorRegs) = 0 ∧
    regGet 0xFFFF (loaded vectorRegs) = 0 ∧ regGet 10 (loaded vectorRegs) = 0x1234 := by decide +kernel

theorem test_reg_set_without_slot :
    nextOf (step (asked [.call .poll (.regSet 3 1)])) =
      some ((asked []).withResult (.changed false)) ∧
    nextOf (step (asked [.call .poll (.regSet 12 5)])) =
      some ((asked []).withResult (.changed false)) := by decide +kernel

/-! ## The FIFO -/

/-- V-F10: four bytes across the end of the array. -/
theorem test_drain_wraps :
    let m := memWriteN (memWriteN [] 510 [0x0A, 0x0B]) 0 [0x0C, 0x0D]
    let s := (ringAt 514 510).withFifoIn m 514
    (fifoStep (.drain 8) s).result = .bytes [0x0A, 0x0B, 0x0C, 0x0D] ∧
      (fifoStep (.drain 8) s).fifoRd = 514 := by decide +kernel

/-- V-F11: the cursor wraps at 1024. -/
theorem test_push_cursor_wraps :
    (push 0x7E (ringAt 1023 1020)).fifoWr = 0 ∧
    fifoQueue (push 0x7E (ringAt 1023 1020)) = [0, 0, 0, 0x7E] := by decide +kernel

/-- V-F6, V-F5: 512 held, and 511 held. -/
theorem test_push_at_capacity :
    push 0xBB (ringAt 512 0) = (ringAt 512 0).withOverflow true ∧
    (push 0x7E (ringAt 511 0)).fifoWr = 512 ∧
    (push 0x7E (ringAt 511 0)).overflow = false := by decide +kernel

/-! ## The decoder -/

/-- V-D2 to V-D5, V-D8 (with 18 bytes, below the least `ASM_CAP`). -/
theorem test_ready :
    let at' (len : Nat) (la now : Tick) : Bool :=
      ready (((asmAppend (List.replicate len 0) State.reset).withActivity la).withNow now)
    at' 8 10 109 = false ∧ at' 8 10 110 = true ∧ at' 8 0xFFFFFFD0 0x33 = false ∧
    at' 8 0xFFFFFFD0 0x34 = true ∧ at' 18 500 500 = false ∧ at' 0 0 500 = false := by decide +kernel

/-- V-D7: a full buffer is ready at once. -/
theorem test_ready_full :
    ready (((State.reset.withAsm [] (Fin.last Config.asmCap)).withActivity 500).withNow 500) = true :=
  (ready_iff _).2 ⟨Nat.succ_ne_zero _, .inr rfl⟩

/-- V-D15 and V-D19 under `CK_CRC`. -/
theorem test_parse_ok :
    parse (vectorParams ckCrc) [0x01, 0x10, 0x00, 0x07, 0x00, 0x01, 0x02, 0x00, 0x01, 0x27, 0x66] =
      .ok (.wrreq 7 1 [0x00, 0x01], 11) ∧
    parse (vectorParams ckCrc) [0x01, 0x03, 0x00, 0x07, 0x00, 0x01, 0xCB, 0x35, 0x55, 0x01] =
      .ok (.rdreq 7 1, 8) := by decide +kernel

/-- V-D10, V-D11, V-D13, V-D14, V-D16, V-D17, V-D18, V-D21. -/
theorem test_parse_errors :
    parse (vectorParams ckCrc) [0x55, 0x01, 0x03] = .error .badMarker ∧
    parse (vectorParams ckCrc) [0x01] = .error .truncated ∧
    parse (vectorParams ckCrc) [0x01, 0x03, 0x00, 0x07, 0x00, 0x01, 0xCB] = .error .truncated ∧
    parse (vectorParams ckCrc) [0x01, 0x10, 0x00, 0x07, 0x00, 0x01] = .error .truncated ∧
    parse (vectorParams ckCrc) [0x01, 0x10, 0x00, 0x07, 0x00, 0x01, 0x02, 0x00, 0x01, 0x27] =
      .error .truncated ∧
    parse (vectorParams ckCrc) [0x01, 0x05, 0x00, 0x07, 0x00, 0x01, 0xCB, 0xBD] =
      .error .badCommand ∧
    parse (vectorParams ckCrc) [0x01, 0x03, 0x00, 0x07, 0x00, 0x01, 0xCB, 0x34] =
      .error .badChecksum ∧
    parse (vectorParams ckCrc) [0x01, 0x01] = .error .badCommand := by decide +kernel

/-- V-D30, V-D34. -/
theorem test_resync_realigns :
    asmBytes (resyncProc (vectorParams ckCrc) (holding [0x55, 0x01, 0x03, 0x00] [])) =
      [0x01, 0x03, 0x00] ∧
    asmBytes (resyncProc (vectorParams ckCrc) (holding [0x01, 0x10, 0x00, 0x07, 0x00, 0x01, 0x02,
      0x00, 0x01, 0x27, 0x67] [])) = [0x01, 0x02, 0x00, 0x01, 0x27, 0x67] := by decide +kernel

/-- V-D31, V-D32, V-D35. -/
theorem test_resync_discards :
    (resyncProc (vectorParams ckCrc) (holding [0x55, 0x66, 0x77] [])).tx = [0x55, 0x66, 0x77] ∧
    (resyncProc (vectorParams ckCrc) (holding [0x01] [])).asmLen = 0 ∧
    (resyncProc { vectorParams ckCrc with echoDiscard := false }
      (holding [0x55, 0x66, 0x77] [])).tx = [] := by decide +kernel

/-! ## Steps -/

/-- The step after `withFetchWord` runs the table word's instruction, and the frame is removed. -/
theorem test_fetch_word_write_clock :
    (nextOf (step (State.reset.withFetchWord 16 0x0005))).map State.act =
      some [.setClock 28800, .ack] ∧
    (nextOf (step (State.reset.withFetchWord 16 0x0005))).map State.asmLen = some 0 := by decide +kernel

theorem test_fetch_word_invalid_read :
    (nextOf (step (State.reset.withFetchWord 16 0x0103))).map State.out = some [] ∧
    (nextOf (step (State.reset.withFetchWord 16 0x0103))).map State.asmLen = some 0 := by decide +kernel

theorem test_reset_memories_canonical :
    Memory.wf State.reset.fifoBuf = true ∧ Memory.wf State.reset.asm = true := by decide +kernel

/-! ## What the witness states are -/

/-- Up to 19 bytes fit, whatever `ASM_CAP` is (R8). -/
theorem le_asmCap {n : Nat} (h : n ≤ 19) : n ≤ Config.asmCap :=
  Nat.le_trans h (Nat.le_add_left 19 Config.asmExtra)

theorem holding_inv (bs : List Byte) (es : List Event) : (holding bs es).Inv := by
  have hc : fifoCount (holding bs es) = fifoCount State.reset := rfl
  exact ⟨rfl, rfl, by rw [hc]; decide, memWriteN_wf 0 _ rfl,
    memWriteN_below rfl (by simp [asmRoom, State.asmLen, State.reset, AsmLen.zero]),
    State.asmLen_le _, rfl⟩

theorem holding_bytes {bs : List Byte} (es : List Event) (h : bs.length ≤ Config.asmCap) :
    asmBytes (holding bs es) = bs :=
  (asmBytes_asmAppend (s := State.reset) bs rfl).trans (List.take_of_length_le h)

/-- A poll that finds the ring empty leaves the buffer and the timestamp as they are. -/
theorem holding_drained (bs : List Byte) (es rest : List Event) (now : Tick)
    (h : bs.length ≤ Config.asmCap) :
    asmBytes (((holding bs es).withPending rest).drained now) = bs ∧
    (((holding bs es).withPending rest).drained now).asmLen = bs.length ∧
    (((holding bs es).withPending rest).drained now).lastActivity = 0 ∧
    (((holding bs es).withPending rest).drained now).now = now := by
  have hd : drainBytes (asmRoom ((holding bs es).withPending rest))
      ((holding bs es).withPending rest) = [] := by
    refine List.eq_nil_of_length_eq_zero ?_
    have hc : fifoCount ((holding bs es).withPending rest) = 0 := by
      show fifoCount State.reset = 0
      decide
    rw [drainBytes_length, drainCount, hc, Nat.min_zero]
  have hw : Memory.wf ((holding bs es).withPending rest).asm = true := memWriteN_wf 0 _ rfl
  have hb : asmBytes (((holding bs es).withPending rest).drained now) = bs := by
    rw [State.drained, asmBytes_pollDrain _ hw, hd, List.append_nil]
    exact holding_bytes rest h
  refine ⟨hb, by rw [← asmBytes_length, hb], ?_, rfl⟩
  rw [State.drained, pollDrain_lastActivity, hd]
  rfl

theorem holding_ready {bs : List Byte} (es rest : List Event) (h1 : 1 ≤ bs.length)
    (h : bs.length ≤ 19) :
    ready (((holding bs es).withPending rest).drained 100) = true := by
  obtain ⟨_, hl, ht, hn⟩ := holding_drained bs es rest 100 (le_asmCap h)
  refine (ready_iff _).2 ⟨by omega, .inl ?_⟩
  rw [hn, ht]
  decide

/-- The whole frame of a read, for the machine's own checksum function. -/
def readFrame (address count : Word) : List Byte :=
  encode Config.params (.rdreq address count)

/-- The frame parses, whatever follows it. -/
theorem readFrame_append_parses (address count : Word) (more : List Byte) :
    parse Config.params (readFrame address count ++ more) = .ok (.rdreq address count, 8) := by
  refine parse_ok.2 ⟨?_, ?_⟩
  · have h1 := be16Val_be16 address
    have h2 := be16Val_be16 count
    simp only [be16, List.cons_append, List.nil_append] at h1 h2
    simp [readFrame, encode, sealFrame, be16, decode, frameLength, requestOf, Config.marker,
      Config.cmdRead, h1, h2]
  · have h := be16Val_be16 (Config.params.ck
      ([Config.marker, Config.cmdRead] ++ be16 address ++ be16 count)) []
    rw [List.append_nil] at h
    exact beq_iff_eq.2 h.symm

theorem readFrame_parses (address count : Word) :
    parse Config.params (readFrame address count) = .ok (.rdreq address count, 8) :=
  List.append_nil (readFrame address count) ▸ readFrame_append_parses address count []

/-- The whole frame of the source's scenario (S2), for the machine's own checksum function. -/
def scenarioFrame : List Byte :=
  encode Config.params (.wrreq 7 1 [0x00, 0x01])

theorem scenarioFrame_parses :
    parse Config.params scenarioFrame = .ok (.wrreq 7 1 [0x00, 0x01], 11) := by
  refine parse_ok.2 ⟨rfl, ?_⟩
  have h := be16Val_be16 (Config.params.ck
    [0x01, 0x10, 0x00, 0x07, 0x00, 0x01, 0x02, 0x00, 0x01]) []
  rw [List.append_nil] at h
  exact beq_iff_eq.2 h.symm

/-! ## Witnesses: the hypotheses of each statement are met together -/

theorem witness_UnassignedIdsEmitNothingAndAreAnswered :
    (((0 : Word).toNat = 0 ∨ (0 : Word).toNat = 6) ∧
      writeConditions 0 12 (List.replicate 24 (0 : Byte)).length) ∧
    (((6 : Word).toNat = 0 ∨ (6 : Word).toNat = 6) ∧
      writeConditions 6 1 (List.replicate 2 (0 : Byte)).length) := by
  simp [writeConditions]

theorem witness_RegGetAnswersStoredValueOrZero :
    (asked [.call .poll (.regGet 11)]).takes (.call .poll (.regGet 11)) [] ∧
    (asked [.call .poll (.regGet 12)]).takes (.call .poll (.regGet 12)) [] :=
  ⟨⟨rfl, rfl⟩, rfl, rfl⟩

theorem witness_RegSetStoresThenDispatchesOnChange :
    (asked [.call .poll (.regSet 7 1)]).takes (.call .poll (.regSet 7 1)) [] ∧
    (RegId.heatStatus.num = (7 : Word).toNat ∧ 7 ≤ (7 : Word).toNat ∧
      (asked [.call .poll (.regSet 7 1)]).x.get .heatStatus ≠ 1) ∧
    (asked [.call .poll (.regSet 11 0)]).takes (.call .poll (.regSet 11 0)) [] ∧
    (∀ r : RegId, r.num = (11 : Word).toNat → 7 ≤ (11 : Word).toNat →
      (asked [.call .poll (.regSet 11 0)]).x.get r = 0) :=
  ⟨⟨rfl, rfl⟩, by decide, ⟨rfl, rfl⟩, fun r _ _ => by cases r <;> rfl⟩

theorem witness_RegSetOutOfRangeDoesNothing :
    ((asked [.call .poll (.regSet 6 1)]).takes (.call .poll (.regSet 6 1)) [] ∧
      ((6 : Word).toNat < 7 ∨ 12 ≤ (6 : Word).toNat)) ∧
    (asked [.call .poll (.regSet 12 1)]).takes (.call .poll (.regSet 12 1)) [] ∧
      ((12 : Word).toNat < 7 ∨ 12 ≤ (12 : Word).toNat) :=
  ⟨⟨⟨rfl, rfl⟩, by decide⟩, ⟨rfl, rfl⟩, by decide⟩

theorem witness_RegSetAgainDispatchesNothing :
    (asked [.call .poll (.regSet 8 ((asked []).x.at (8 : Word).toNat))]).takes
      (.call .poll (.regSet 8 ((asked []).x.at (8 : Word).toNat))) [] ∧
    (asked [.call .poll (.regSet 8 3), .call .poll (.regSet 8 3)]).takes
      (.call .poll (.regSet 8 3)) [.call .poll (.regSet 8 3)] :=
  ⟨⟨rfl, rfl⟩, rfl, rfl⟩

theorem witness_StoredRegisterReadsBackVerbatim :
    (7 ≤ (7 : Word).toNat ∧ (7 : Word).toNat < 12 ∧
      (asked [.call .poll (.regSet 7 0xFFFF), .call .poll (.regGet 7)]).takes
        (.call .poll (.regSet 7 0xFFFF)) [.call .poll (.regGet 7)]) ∧
    7 ≤ (11 : Word).toNat ∧ (11 : Word).toNat < 12 ∧
      (asked [.call .poll (.regSet 11 1), .call .poll (.regGet 11)]).takes
        (.call .poll (.regSet 11 1)) [.call .poll (.regGet 11)] :=
  ⟨⟨by decide, by decide, rfl, rfl⟩, by decide, by decide, rfl, rfl⟩

theorem witness_ReadCommandAnswersExactlyWhenValid :
    readConditions 7 5 ∧ readConditions 11 1 ∧ ¬ readConditions 6 1 ∧ ¬ readConditions 7 0 ∧
      ¬ readConditions 7 6 := by
  simp [readConditions]

theorem witness_InvalidWriteChangesNothing :
    ¬ writeConditions 7 0 ([] : List Byte).length ∧
    ¬ writeConditions 11 2 [0x00#8, 0x01#8, 0x00#8, 0x02#8].length ∧
    ¬ writeConditions 7 1 [0x00#8].length ∧ ¬ writeConditions 5 1 [0x00#8, 0x01#8].length := by
  simp [writeConditions]

theorem witness_ValidWriteSetsItsStoredRegisters :
    (writeConditions 7 5 (List.replicate 10 (0 : Byte)).length ∧ 7 ≤ (7 : Word).toNat) ∧
    writeConditions 11 1 (List.replicate 2 (0 : Byte)).length ∧ 7 ≤ (11 : Word).toNat := by
  simp [writeConditions]

theorem witness_WriteBelowThresholdRunsOneEntry :
    (writeConditions 6 6 (List.replicate 12 (0 : Byte)).length ∧ (6 : Word).toNat < 7) ∧
    writeConditions 2 2 (List.replicate 4 (0 : Byte)).length ∧ (2 : Word).toNat < 7 := by
  simp [writeConditions]

theorem witness_SetAlarmWriteDecodesThePayload :
    (([] : List Byte).length + 4 = 2 * (2 : Word).toNat ∧ 2 + (2 : Word).toNat ≤ 12) ∧
    (List.replicate 16 (0 : Byte)).length + 4 = 2 * (10 : Word).toNat ∧
      2 + (10 : Word).toNat ≤ 12 := by
  decide

theorem witness_SetUtcWriteProgramsTheClock :
    (([] : List Byte).length + 4 = 2 * (2 : Word).toNat ∧ 5 + (2 : Word).toNat ≤ 12) ∧
    (List.replicate 10 (0 : Byte)).length + 4 = 2 * (7 : Word).toNat ∧
      5 + (7 : Word).toNat ≤ 12 := by
  decide

theorem witness_ValidWriteSendsOneResponse :
    writeConditions 0 12 (List.replicate 24 (0 : Byte)).length ∧
    writeConditions 11 1 (List.replicate 2 (0 : Byte)).length := by
  simp [writeConditions]

theorem witness_ScenarioMakesHeatingActive : State.reset.x.heatStatus = 0 := rfl

theorem witness_UploadSendsFiveRegistersAndZero :
    (asked [.call .poll .upload]).takes (.call .poll .upload) [] := ⟨rfl, rfl⟩

theorem witness_EncodedRequestsParseBack :
    ((Instr.rdreq 7 1).wf = true ∧ (Instr.rdreq 7 1).isRequest = true) ∧
    (Instr.wrreq 7 1 (List.replicate 255 0)).wf = true ∧
      (Instr.wrreq 7 1 (List.replicate 255 0)).isRequest = true :=
  ⟨⟨rfl, rfl⟩, test_wf_takes_255_data_bytes, rfl⟩

theorem witness_ParsedBytesAreTheEncoding :
    parse (vectorParams ckCrc) [0x01, 0x03, 0x00, 0x07, 0x00, 0x01, 0xCB, 0x35, 0x55, 0x01] =
      .ok (.rdreq 7 1, 8) := test_parse_ok.2

theorem witness_EncodedResponsesDecodeBackAtTheHost :
    ((Instr.rdrsp [0x0001]).wf = true ∧ (Instr.rdrsp [0x0001]).isResponse = true) ∧
    ((Instr.rdrsp (List.replicate 127 0)).wf = true ∧
      (Instr.rdrsp (List.replicate 127 0)).isResponse = true) ∧
    (Instr.wrrsp 7 1).wf = true ∧ (Instr.wrrsp 7 1).isResponse = true := by
  decide +kernel

theorem witness_EncodedEntriesDecodeBack :
    (Instr.regUnassigned0 9).isEntry = true ∧ (Instr.regSetUtc 1).isEntry = true ∧
    (Instr.regShortcut2 1).isEntry = true := by
  decide

theorem witness_ParseErrorsByKind :
    (0x55 : Byte) ≠ 0x01 ∧ ((0x02 : Byte) ≠ 0x03 ∧ (0x02 : Byte) ≠ 0x10) ∧
    (List.replicate 5 (0 : Byte)).length + 2 < 8 ∧ (List.replicate 4 (0 : Byte)).length + 2 < 7 ∧
    (List.replicate 256 (0 : Byte)).length + 7 < 9 + (0xFF : Byte).toNat ∧
    decode [0x01, 0x03, 0x00, 0x07, 0x00, 0x05, 0x08, 0x34] = .ok (.rdreq 7 5, 8) := by
  decide +kernel

theorem witness_PushStoresAtTheWriteCursor :
    let s := (ringAt 511 0).withPending [.call .interrupt (.push 0x7E)]
    s.takes (.call .interrupt (.push 0x7E)) [] ∧ Memory.wf s.fifoBuf = true ∧ fifoCount s < 512 :=
  ⟨⟨rfl, rfl⟩, rfl, by decide⟩

theorem witness_PushIntoFullRingDropsTheByte :
    let s := (ringAt 512 0).withPending [.call .interrupt (.push 0xBB)]
    s.takes (.call .interrupt (.push 0xBB)) [] ∧ fifoCount s = 512 :=
  ⟨⟨rfl, rfl⟩, by decide⟩

theorem witness_RingRefinesTheAbstractQueue :
    (Memory.wf (ringAt 511 0).fifoBuf = true ∧ fifoCount (ringAt 511 0) ≤ 512 ∧
      (fifoQueue (ringAt 511 0)).length < 512) ∧
    Memory.wf (ringAt 512 0).fifoBuf = true ∧ fifoCount (ringAt 512 0) ≤ 512 ∧
      (fifoQueue (ringAt 512 0)).length = 512 := by
  decide +kernel

/-- The schedule that pushes these bytes. -/
def pushes (bs : List Byte) : List Event :=
  bs.map (fun b => Event.call .interrupt (.push b))

theorem asked_pushes (bs : List Byte) :
    (asked (pushes bs)).phase = .accumulating ∧ Memory.wf (asked (pushes bs)).fifoBuf = true ∧
    fifoCount (asked (pushes bs)) = 0 ∧ (asked (pushes bs)).pending = pushes bs ++ [] := by
  have hc : fifoCount (asked (pushes bs)) = fifoCount State.reset := rfl
  exact ⟨rfl, rfl, by rw [hc]; decide, (List.append_nil _).symm⟩

/-- The hypotheses hold together for 512 bytes `AA`. -/
theorem witness_PushesThenDrainReturnThemInOrder :
    (fun bs : List Byte =>
      ((asked (pushes bs)).phase = .accumulating ∧
        Memory.wf (asked (pushes bs)).fifoBuf = true ∧
        fifoCount (asked (pushes bs)) = 0 ∧ (asked (pushes bs)).pending = pushes bs ++ []) ∧
      bs.length ≤ 512 ∧ 1 ≤ 512 ∧ 512 ≤ bs.length) (List.replicate 512 0xAA) :=
  ⟨asked_pushes _, Nat.le_of_eq List.length_replicate, by decide,
    Nat.le_of_eq List.length_replicate.symm⟩

theorem witness_OverflowFlagTellsOfTheLatestPush :
    (((ringAt 512 0).withPending [.call .interrupt (.push 0xBB)]).takes
      (.call .interrupt (.push 0xBB)) [] ∧
      fifoCount ((ringAt 512 0).withPending [.call .interrupt (.push 0xBB)]) ≤ 512) ∧
    step (asked [.call .poll (.regGet 7)]) = .next ((asked []).withResult (.value 0)) ∧
    (∀ (ctx : Context) (b : Byte),
      (asked [.call .poll (.regGet 7)]).pending.head? ≠ some (.call ctx (.push b))) ∧
    (asked [.call .poll (.regGet 7)]).pending.head? ≠ some .powerUp :=
  ⟨⟨⟨rfl, rfl⟩, by decide⟩, rfl, fun _ _ => by simp [asked], by simp [asked]⟩

theorem witness_PollDrainAppendsWhatFits :
    Memory.wf State.reset.asm = true := rfl

theorem witness_PollDecodesExactlyWhenReady_empty :
    (holding [] [.call .poll (.poll 500)]).takes (.call .poll (.poll 500)) [] ∧
    (((holding [] [.call .poll (.poll 500)]).withPending []).drained 500).asmLen = 0 :=
  ⟨⟨rfl, rfl⟩, (holding_drained [] _ [] 500 (le_asmCap (by decide))).2.1⟩

theorem witness_PollDecodesExactlyWhenReady_waits :
    (holding [0x01] [.call .poll (.poll 99)]).takes (.call .poll (.poll 99)) [] ∧
    (((holding [0x01] [.call .poll (.poll 99)]).withPending []).drained 99).asmLen ≠
      Config.asmCap ∧
    ((99 : Tick) - (((holding [0x01] [.call .poll (.poll 99)]).withPending []).drained
      99).lastActivity).toNat < 100 := by
  obtain ⟨_, hl, ht, _⟩ := holding_drained [0x01] [.call .poll (.poll 99)] [] 99 (le_asmCap (by decide))
  have hcap : 19 ≤ Config.asmCap := le_asmCap (Nat.le_refl _)
  refine ⟨⟨rfl, rfl⟩, ?_, by rw [ht]; decide⟩
  rw [hl]
  simp only [List.length_cons, List.length_nil]
  omega

theorem witness_PollDecodesExactlyWhenReady_timeout :
    (holding [0x01] [.call .poll (.poll 100)]).takes (.call .poll (.poll 100)) [] ∧
    (((holding [0x01] [.call .poll (.poll 100)]).withPending []).drained 100).asmLen ≠ 0 ∧
    100 ≤ ((100 : Tick) - (((holding [0x01] [.call .poll (.poll 100)]).withPending []).drained
      100).lastActivity).toNat := by
  obtain ⟨_, hl, ht, _⟩ := holding_drained [0x01] [.call .poll (.poll 100)] [] 100 (le_asmCap (by decide))
  exact ⟨⟨rfl, rfl⟩, by rw [hl]; simp, by rw [ht]; decide⟩

theorem witness_PollDecodesExactlyWhenReady_full :
    let bs : List Byte := List.replicate Config.asmCap 0x55
    (holding bs [.call .poll (.poll 0)]).takes (.call .poll (.poll 0)) [] ∧
    (((holding bs [.call .poll (.poll 0)]).withPending []).drained 0).asmLen ≠ 0 ∧
    (((holding bs [.call .poll (.poll 0)]).withPending []).drained 0).asmLen =
      Config.asmCap := by
  intro bs
  have hcap : 19 ≤ Config.asmCap := le_asmCap (Nat.le_refl _)
  have hb : bs.length = Config.asmCap := List.length_replicate ..
  obtain ⟨_, hl, _, _⟩ := holding_drained bs [.call .poll (.poll 0)] [] 0 (Nat.le_of_eq hb)
  exact ⟨⟨rfl, rfl⟩, by omega, by omega⟩

theorem witness_StepRunsTheDecodedInstruction :
    let s := State.reset.withFetchWord 16 0x0007
    s.phase = .validated ∧
    decode (asmBytes s) = .ok (.wrreq 7 1 [0x00, 0x00], 11) ∧
    exec (.wrreq 7 1 [0x00, 0x00]) s =
      .next (writeCommand Config.params 7 1 [0x00, 0x00] s) :=
  ⟨rfl, by decide +kernel, rfl⟩

theorem witness_PollRunsAndRemovesTheFrame :
    let s := holding (readFrame 7 1) [.call .poll (.poll 100)]
    s.Inv ∧ s.takes (.call .poll (.poll 100)) [] ∧
    ready ((s.withPending []).drained 100) = true ∧
    parse Config.params (asmBytes ((s.withPending []).drained 100)) = .ok (.rdreq 7 1, 8) :=
  ⟨holding_inv _ _, ⟨rfl, rfl⟩, holding_ready _ _ (by decide) (by decide),
    (congrArg _ (holding_drained _ _ [] 100 (le_asmCap (by decide))).1).trans (readFrame_parses 7 1)⟩

/-- A poll finds a good read frame with one byte after it: the clause that the byte waits. -/
theorem witness_PollRunsAndRemovesTheFrame_rest (count : Word) :
    let s := holding (readFrame 7 count ++ [0x55]) [.call .poll (.poll 100)]
    let t := (s.withPending []).drained 100
    s.Inv ∧ s.takes (.call .poll (.poll 100)) [] ∧ ready t = true ∧
    parse Config.params (asmBytes t) = .ok (.rdreq 7 count, 8) ∧ t.asmLen = 9 := by
  have hlen : (readFrame 7 count ++ [0x55]).length = 9 := by
    simp [readFrame, encode, sealFrame, be16]
  obtain ⟨hb, hl, _, _⟩ := holding_drained (readFrame 7 count ++ [0x55]) [.call .poll (.poll 100)]
    [] 100 (le_asmCap (hlen ▸ by decide))
  exact ⟨holding_inv _ _, ⟨rfl, rfl⟩, holding_ready _ _ (hlen ▸ by decide)
    (hlen ▸ by decide),
    (congrArg _ hb).trans (readFrame_append_parses 7 count _), hl.trans hlen⟩

/-- The same with an invalid request, whose left byte waits too (log 30). -/
theorem witness_PollRunsAndRemovesTheFrame_invalid :
    let s := holding (readFrame 7 6 ++ [0x55]) [.call .poll (.poll 100)]
    invalidRequest (.rdreq 7 6) ∧
    parse Config.params (asmBytes ((s.withPending []).drained 100)) = .ok (.rdreq 7 6, 8) ∧
    ((s.withPending []).drained 100).asmLen ≠ 8 :=
  ⟨.inl ⟨7, 6, rfl, by simp [readConditions]⟩,
    (witness_PollRunsAndRemovesTheFrame_rest 6).2.2.2.1,
    (witness_PollRunsAndRemovesTheFrame_rest 6).2.2.2.2 ▸ by decide⟩

theorem witness_InvalidRequestIsConsumedSilently :
    let s := holding (readFrame 7 6) [.call .poll (.poll 100)]
    s.Inv ∧ s.takes (.call .poll (.poll 100)) [] ∧
    ready ((s.withPending []).drained 100) = true ∧
    parse Config.params (asmBytes ((s.withPending []).drained 100)) = .ok (.rdreq 7 6, 8) ∧
    invalidRequest (.rdreq 7 6) :=
  ⟨holding_inv _ _, ⟨rfl, rfl⟩, holding_ready _ _ (by decide) (by decide),
    (congrArg _ (holding_drained _ _ [] 100 (le_asmCap (by decide))).1).trans (readFrame_parses 7 6),
    .inl ⟨7, 6, rfl, by simp [readConditions]⟩⟩

theorem witness_FailedParseRealignsOrEchoes_marker :
    let s := holding [0x55, 0x01] [.call .poll (.poll 100)]
    let t := (s.withPending []).drained 100
    s.Inv ∧ s.takes (.call .poll (.poll 100)) [] ∧ ready t = true ∧
    parse Config.params (asmBytes t) = .error .badMarker ∧
    1 ≤ 1 ∧ 1 < t.asmLen ∧ (asmBytes t)[1]? = some 0x01 ∧
    ∀ j, 1 ≤ j → j < 1 → (asmBytes t)[j]? ≠ some 0x01 := by
  intro s t
  obtain ⟨hb, hl, _, _⟩ := holding_drained [0x55, 0x01] [.call .poll (.poll 100)] [] 100 (le_asmCap (by decide))
  refine ⟨holding_inv _ _, ⟨rfl, rfl⟩, holding_ready _ _ (by decide) (by decide),
    (congrArg _ hb).trans (by decide), by decide, ?_, by rw [hb]; rfl, fun j h1 h2 => by omega⟩
  rw [hl]
  decide

theorem witness_FailedParseRealignsOrEchoes_none :
    let s := holding [0x01] [.call .poll (.poll 100)]
    let t := (s.withPending []).drained 100
    s.Inv ∧ s.takes (.call .poll (.poll 100)) [] ∧ ready t = true ∧
    parse Config.params (asmBytes t) = .error .truncated ∧
    ∀ k, 1 ≤ k → (asmBytes t)[k]? ≠ some 0x01 := by
  intro s t
  obtain ⟨hb, _, _, _⟩ := holding_drained [0x01] [.call .poll (.poll 100)] [] 100 (le_asmCap (by decide))
  refine ⟨holding_inv _ _, ⟨rfl, rfl⟩, holding_ready _ _ (by decide) (by decide),
    (congrArg _ hb).trans (by decide), fun k hk => ?_⟩
  rw [hb]
  simp [List.getElem?_eq_none, hk]

theorem witness_EveryAttemptRemovesAByte :
    let s := holding [0x01] [.call .poll (.poll 100)]
    s.Inv ∧ s.takes (.call .poll (.poll 100)) [] ∧
    ready ((s.withPending []).drained 100) = true :=
  ⟨holding_inv _ _, ⟨rfl, rfl⟩, holding_ready _ _ (by decide) (by decide)⟩

theorem witness_ResyncRecoversTheSecondFrame :
    let s := holding (readFrame 7 1 ++ [0x55] ++ readFrame 7 5)
      [.call .poll (.poll 100), .call .poll (.poll 200), .call .poll (.poll 300)]
    s.Inv ∧ (Instr.rdreq 7 1).wf = true ∧ (Instr.rdreq 7 1).isRequest = true ∧
    (Instr.rdreq 7 5).wf = true ∧ (Instr.rdreq 7 5).isRequest = true ∧ fifoCount s = 0 ∧
    asmBytes s = encode Config.params (.rdreq 7 1) ++ [0x55] ++
      encode Config.params (.rdreq 7 5) ∧
    s.pending = .call .poll (.poll 100) :: .call .poll (.poll 200) :: .call .poll (.poll 300) ::
      [] ∧
    100 ≤ ((100 : Tick) - s.lastActivity).toNat ∧ 100 ≤ ((200 : Tick) - 100).toNat ∧
    100 ≤ ((300 : Tick) - 200).toNat :=
  ⟨holding_inv _ _, rfl, rfl, rfl, rfl, rfl, holding_bytes _ (le_asmCap (by decide)), rfl, by decide,
    by decide, by decide⟩

theorem witness_StepKeepsTheInvariant :
    let s := asked [.call .interrupt (.push 0x01)]
    s.Inv ∧ step s = .next (push 0x01 (asked [])) :=
  ⟨⟨rfl, rfl, by decide, rfl, rfl, Nat.zero_le _, rfl⟩, rfl⟩

theorem witness_PowerUpIsReset :
    (asked [.powerUp, .call .interrupt (.push 0x01)]).takes .powerUp
      [.call .interrupt (.push 0x01)] := ⟨rfl, rfl⟩

theorem witness_WrongContextIsRefused :
    (asked [.call .poll (.push 0x01)]).takes (.call .poll (.push 0x01)) [] ∧
    (∀ b, PortOp.drain 8 ≠ .push b) ∧
    (asked [.call .interrupt (.drain 8)]).takes (.call .interrupt (.drain 8)) [] :=
  ⟨⟨rfl, rfl⟩, fun _ => by simp, rfl, rfl⟩

theorem witness_IdleWithoutEvents :
    State.reset.phase = .accumulating ∧ State.reset.pending = [] := ⟨rfl, rfl⟩

theorem witness_LegalEventsNeverStopTheBlock :
    let s := holding [0x55] [.call .poll (.poll 100)]
    s.phase = .accumulating ∧ ∀ e ∈ s.pending.head?, e.legal = true :=
  ⟨rfl, fun e he => by cases he; rfl⟩

theorem witness_LegalSchedulesRunOnFromReset :
    ∀ e ∈ [Event.call .interrupt (.push 0x55), .call .poll (.poll 0), .call .poll (.poll 100),
      .powerUp], e.legal = true := by
  decide

theorem witness_RegistersChangeOnlyThroughTheSetter :
    let s := asked [.call .poll (.regGet 7)]
    s.Inv ∧ step s = .next ((asked []).withResult (.value 0)) :=
  ⟨⟨rfl, rfl, by decide, rfl, rfl, Nat.zero_le _, rfl⟩, rfl⟩

/-- The table changes in a `RegSet` step. -/
theorem witness_RegistersChangeOnlyThroughTheSetter_regSet :
    let s := asked [.call .poll (.regSet 7 1)]
    s.Inv ∧ ∃ t, step s = .next t ∧ t.x ≠ s.x :=
  ⟨⟨rfl, rfl, by decide, rfl, rfl, Nat.zero_le _, rfl⟩, _, rfl, by decide +kernel⟩

/-- The table changes at power-up. -/
theorem witness_RegistersChangeOnlyThroughTheSetter_powerUp :
    let s := (loaded vectorRegs).withPending [.powerUp]
    s.Inv ∧ ∃ t, step s = .next t ∧ t.x ≠ s.x :=
  ⟨⟨rfl, rfl, by decide, rfl, rfl, Nat.zero_le _, rfl⟩, _, rfl, by decide⟩

/-- The table changes in a poll that is ready and finds a good write request. -/
theorem witness_RegistersChangeOnlyThroughTheSetter_poll :
    let s := holding scenarioFrame [.call .poll (.poll 100)]
    s.Inv ∧ ready ((s.withPending []).drained 100) = true ∧
    parse Config.params (asmBytes ((s.withPending []).drained 100)) =
      .ok (.wrreq 7 1 [0x00, 0x01], 11) ∧ ∃ t, step s = .next t ∧ t.x.heatStatus = 1 := by
  intro s
  have hi : s.Inv := holding_inv _ _
  have hr : ready ((s.withPending []).drained 100) = true := holding_ready _ _ (by decide) (by decide)
  obtain ⟨hb, hl, _, _⟩ := holding_drained scenarioFrame [.call .poll (.poll 100)] [] 100 (le_asmCap (by decide))
  have hp : parse Config.params (asmBytes ((s.withPending []).drained 100)) =
      .ok (.wrreq 7 1 [0x00, 0x01], 11) := (congrArg _ hb).trans scenarioFrame_parses
  refine ⟨hi, hr, hp, ?_⟩
  have hs : step s = decodeAttempt (((s.withPending []).drained 100).withPhase .frameReady) :=
    if_pos hr
  rcases decodeAttempt_frameReady (s := ((s.withPending []).drained 100).withPhase .frameReady) rfl
    with ⟨i, len, u, hp', he, _, hd⟩ | ⟨e, hp', _⟩
  · have hq := hp'.symm.trans hp
    cases hq
    refine ⟨_, hs.trans hd, ?_⟩
    have hu : nextOf (exec (.wrreq 7 1 [0x00, 0x01]) State.reset) ≠ none := by decide +kernel
    obtain ⟨v, hv, hx, _⟩ := exec_congr (s := ((((s.withPending []).drained 100).withPhase
      .frameReady).withPhase .validated)) (s' := State.reset) rfl rfl he
    have hh : (nextOf (exec (.wrreq 7 1 [0x00, 0x01]) State.reset)).map
      (fun t => t.x.heatStatus) = some 1 := by decide +kernel
    rw [hv] at hh
    rw [retire_eq]
    simpa [nextOf, hx] using hh
  · exact absurd (hp'.symm.trans hp) (by simp)

theorem witness_OutputsAreOnlyAppended :
    let s := asked [.call .poll (.regGet 7)]
    step s = .next ((asked []).withResult (.value 0)) ∧ s.pending.head? ≠ some .powerUp :=
  ⟨rfl, by simp [asked]⟩

theorem witness_DirectDrainIsRefusedByTheBlock :
    (asked [.call .poll (.drain 8)]).takes (.call .poll (.drain 8)) [] ∧
    let s := (ringAt 4 0).withPending [.call .poll (.poll 0)]
    s.phase = .accumulating ∧ ∃ t, step s = .next t ∧ t.fifoRd ≠ s.fifoRd := by
  have hcap : 19 ≤ Config.asmCap := le_asmCap (Nat.le_refl _)
  have hc : drainCount (Config.asmCap - 0) (ringAt 4 0) = 4 :=
    Nat.min_eq_right (show 4 ≤ Config.asmCap - 0 by omega)
  have hb : (drainBytes (Config.asmCap - 0) (ringAt 4 0)).length = 4 :=
    (drainBytes_length _ _).trans hc
  have hl : ((ringAt 4 0).drained 0).asmLen = 4 :=
    (Nat.zero_add _).trans hb
  have ht : ((ringAt 4 0).drained 0).lastActivity = 0 := by
    rw [State.drained, pollDrain_lastActivity]
    exact ite_self (0 : Tick)
  have hr : ready ((ringAt 4 0).drained 0) = false := by
    refine Bool.eq_false_iff.2 fun h => ?_
    rcases ((ready_iff _).1 h).2 with h | h
    · rw [ht] at h
      exact absurd h (by decide)
    · omega
  have hs : step ((ringAt 4 0).withPending [.call .poll (.poll 0)]) =
      .next ((ringAt 4 0).drained 0) := by
    show (if ready ((ringAt 4 0).drained 0) = true then
      decodeAttempt (((ringAt 4 0).drained 0).withPhase .frameReady) else _) = _
    exact if_neg (Bool.eq_false_iff.1 hr)
  refine ⟨⟨rfl, rfl⟩, rfl, _, hs, ?_⟩
  show (0 : Cursor) + BitVec.ofNat 10 (drainCount (Config.asmCap - 0) (ringAt 4 0)) ≠ 0
  rw [hc]
  decide

theorem witness_DrainsReturnTheAcceptedBytesInOrder :
    Memory.wf (ringAt 511 0).fifoBuf = true ∧ fifoCount (ringAt 511 0) ≤ 512 ∧
    acceptedBytes [.push 0xAA, .push 0xBB, .drain 1, .push 0xCC] (ringAt 511 0) = [0xAA, 0xCC] := by
  decide +kernel

theorem witness_ReadsLeaveTheRegistersAlone :
    (Instr.rdreq 7 1).mayStore = false ∧ Instr.upload.mayStore = false ∧
    (Instr.regPowerOff 1).mayStore = false := ⟨rfl, rfl, rfl⟩

end Sys2Proof.Tests
end

section
/-! PROOF. The ring of the FIFO: its count and its queue after a push and after a drain, and the
refinement of the abstract queue (R25, R141, R142, R145). -/

namespace Sys2Proof.Machine

/-! ## The count -/

/-- The write cursor is the read cursor plus the count, modulo 1024 (R25). -/
theorem fifoWr_toNat (s : State) : s.fifoWr.toNat = (s.fifoRd.toNat + fifoCount s) % 1024 := by
  unfold fifoCount
  bv_omega

/-- An accepted byte makes the count one more. -/
theorem fifoCount_push_of_room (b : Byte) {s : State} (h : fifoCount s < 512) :
    fifoCount (push b s) = fifoCount s + 1 := by
  rcases push_cases b s with ⟨hfull, _⟩ | ⟨_, he⟩
  · exact absurd hfull (Nat.not_le.2 h)
  · rw [he]
    simp only [fifoCount, State.withOverflow_fifoWr, State.withOverflow_fifoRd,
      State.withFifoIn_fifoWr, State.withFifoIn_fifoRd] at h ⊢
    bv_omega

theorem drainCount_le (n : Nat) (s : State) : drainCount n s ≤ fifoCount s :=
  Nat.min_le_right _ _

/-- A drain makes the count less by what it takes. -/
theorem fifoCount_drain (n : Nat) (s : State) :
    fifoCount (drain n s) = fifoCount s - drainCount n s := by
  have hle := drainCount_le n s
  generalize hm : drainCount n s = m at hle
  simp only [drain, hm, fifoCount, State.withFifoRd_fifoWr, State.withFifoRd_fifoRd] at hle ⊢
  bv_omega

/-! ## The queue -/

theorem fifoOldest_succ (s : State) (n : Nat) :
    fifoOldest s (n + 1) =
      fifoOldest s n ++ [memRead s.fifoBuf (slotOf (s.fifoRd.toNat + n))] := by
  simp [fifoOldest, List.range_succ]

/-- The slot behind the newest byte is the slot of the write cursor. -/
theorem slotOf_add_fifoCount (s : State) :
    slotOf (s.fifoRd.toNat + fifoCount s) = slotOf s.fifoWr.toNat := by
  rw [fifoWr_toNat]
  simp only [slotOf, Config.fifoCap]
  omega

/-- While there is room, the slot of the write cursor holds none of the bytes held. -/
theorem slotOf_ne_slotOf_fifoWr {s : State} (h : fifoCount s < 512) {k : Nat}
    (hk : k < fifoCount s) : slotOf (s.fifoRd.toNat + k) ≠ slotOf s.fifoWr.toNat := by
  rw [← slotOf_add_fifoCount]
  simp only [slotOf, Config.fifoCap]
  omega

/-- R141: a byte pushed while there is room is the newest of the queue. -/
theorem fifoQueue_push_of_room (b : Byte) {s : State} (hwf : Memory.wf s.fifoBuf = true)
    (h : fifoCount s < 512) :
    fifoQueue (push b s) = fifoQueue s ++ [b] ∧ (push b s).overflow = false := by
  have hcount := fifoCount_push_of_room b h
  rcases push_cases b s with ⟨hfull, _⟩ | ⟨_, he⟩
  · exact absurd hfull (Nat.not_le.2 h)
  · have hbuf : (push b s).fifoBuf = memWrite s.fifoBuf (slotOf s.fifoWr.toNat) b := by rw [he]; rfl
    have hrd : (push b s).fifoRd = s.fifoRd := by rw [he]; rfl
    have hold : fifoOldest (push b s) (fifoCount s) = fifoOldest s (fifoCount s) := by
      refine List.map_congr_left fun k hk => ?_
      rw [hbuf, hrd]
      exact memRead_memWrite_ne _ b (slotOf_ne_slotOf_fifoWr h (List.mem_range.1 hk))
    refine ⟨?_, by rw [he]; rfl⟩
    rw [fifoQueue, hcount, fifoOldest_succ, hold, hbuf, hrd, slotOf_add_fifoCount,
      memRead_memWrite_same _ b hwf]
    rfl

/-- R142: a byte pushed into a full ring is dropped. -/
theorem fifoQueue_push_of_full (b : Byte) {s : State} (h : fifoCount s = 512) :
    fifoQueue (push b s) = fifoQueue s ∧ (push b s).overflow = true := by
  rcases push_cases b s with ⟨_, he⟩ | ⟨hroom, _⟩
  · rw [he]
    exact ⟨rfl, rfl⟩
  · exact absurd hroom (Nat.not_lt.2 (Nat.le_of_eq h.symm))

/-- R145: a drain returns the oldest bytes. -/
theorem drainBytes_eq_take (n : Nat) (s : State) : drainBytes n s = (fifoQueue s).take n := by
  simp [drainBytes, fifoQueue, fifoOldest, drainCount, ← List.map_take, List.take_range]

/-- After a drain of `m` bytes the slot of byte `k` is the one byte `m + k` had before. -/
theorem slotOf_fifoRd_drain (n k : Nat) (s : State) :
    slotOf ((drain n s).fifoRd.toNat + k) = slotOf (s.fifoRd.toNat + (drainCount n s + k)) := by
  simp only [drain, State.withFifoRd_fifoRd, slotOf, Config.fifoCap, BitVec.toNat_add,
    BitVec.toNat_ofNat]
  omega

/-- R145: a drain leaves the bytes behind those it returns. -/
theorem fifoQueue_drain (n : Nat) (s : State) : fifoQueue (drain n s) = (fifoQueue s).drop n := by
  have hcount := fifoCount_drain n s
  refine List.ext_getElem ?_ fun k hk hk' => ?_
  · simp only [fifoQueue_length, List.length_drop, hcount, drainCount]
    omega
  · have hm : drainCount n s = n := by
      simp only [List.length_drop, fifoQueue_length] at hk'
      simp only [drainCount]
      omega
    rw [List.getElem_drop]
    simp only [fifoQueue, fifoOldest, List.getElem_map, List.getElem_range]
    rw [slotOf_fifoRd_drain, hm]
    rfl

/-- Settles O34: the rules of the queue for a push with room, a push into a full ring, and a drain. -/
theorem ringRefinesTheAbstractQueue : Obligations.RingRefinesTheAbstractQueue := by
  intro s hwf _
  simp only [fifoQueue_length]
  exact ⟨fun b hroom => fifoQueue_push_of_room b hwf hroom,
    fun b hfull => fifoQueue_push_of_full b hfull,
    fun n => ⟨drainBytes_eq_take n s, fifoQueue_drain n s, rfl⟩⟩

end Sys2Proof.Machine
end

section
/-! PROOF. What a poll and a step can do, and the invariant of the block (R25, R28, R30, R34). -/

namespace Sys2Proof.Machine

/-! ## What a poll can do -/

theorem poll_of_not_ready {now : Tick} {s : State} (h : ready (pollDrain now s) = false) :
    poll now s = .next (pollDrain now s) := by
  simp [poll, h]

theorem poll_of_ready {now : Tick} {s : State} (h : ready (pollDrain now s) = true) :
    poll now s = decodeAttempt ((pollDrain now s).withPhase .frameReady) := by
  simp [poll, h]

/-- What a poll can do: drain only; run and remove the frame it finds; or take the frame error
(R160, R172, R175). -/
theorem poll_cases (now : Tick) (s : State) :
    (ready (pollDrain now s) = false ∧ poll now s = .next (pollDrain now s)) ∨
    (ready (pollDrain now s) = true ∧
      ∃ i len t, parse Config.params (asmBytes (pollDrain now s)) = .ok (i, len) ∧
        exec i ((pollDrain now s).withPhase .validated) = .next t ∧
        poll now s = .next (retire len t)) ∨
    (ready (pollDrain now s) = true ∧
      ∃ e, parse Config.params (asmBytes (pollDrain now s)) = .error e ∧
        poll now s =
          .next (takeFrameError Config.params e ((pollDrain now s).withPhase .frameReady))) := by
  cases hr : ready (pollDrain now s) with
  | false => exact .inl ⟨rfl, poll_of_not_ready hr⟩
  | true =>
    rw [poll_of_ready hr]
    rcases decodeAttempt_frameReady (s := (pollDrain now s).withPhase .frameReady) rfl with
      ⟨i, len, t, hp, ht, _, hd⟩ | ⟨e, he, hd⟩
    · exact .inr (.inl ⟨rfl, i, len, t, hp, ht, hd⟩)
    · exact .inr (.inr ⟨rfl, e, he, hd⟩)

/-- `RegSet` writes the register table and the outputs only. -/
theorem regSet_extends (p : Params) (id v : Word) (s : State) : Extends s (regSet p id v s) :=
  (regSet_readsRegistersOnly p id v).extends s

/-! ## The two buffers, in whatever phase

The invariant's clauses about the FIFO and about the assembly buffer, apart from its clause about the
phase, which does not hold inside a poll. Each speaks of its own fields only, so an update of other
fields keeps it by definition. -/

/-- The FIFO's part of the invariant (R25, R34). -/
def State.RingOk (s : State) : Prop :=
  Memory.wf s.fifoBuf = true ∧ Memory.below Config.fifoCap s.fifoBuf = true ∧
    fifoCount s ≤ Config.fifoCap

/-- The assembly buffer's part of the invariant (R28, R34); the bound on its length is in the state's
type. -/
def State.AsmOk (s : State) : Prop :=
  Memory.wf s.asm = true ∧ Memory.below Config.asmCap s.asm = true

/-- The invariant is its two parts and an idle decoder. -/
theorem State.inv_iff (s : State) :
    s.Inv ↔ s.RingOk ∧ s.AsmOk ∧ s.phase = .accumulating := by
  constructor
  · rintro ⟨hfwf, hfbelow, hcount, hawf, habelow, _, hphase⟩
    exact ⟨⟨hfwf, hfbelow, hcount⟩, ⟨hawf, habelow⟩, hphase⟩
  · rintro ⟨⟨hfwf, hfbelow, hcount⟩, ⟨hawf, habelow⟩, hphase⟩
    exact ⟨hfwf, hfbelow, hcount, hawf, habelow, s.asmLen_le, hphase⟩

theorem slotOf_lt (cursor : Nat) : slotOf cursor < Config.fifoCap :=
  Nat.mod_lt _ (by decide)

theorem push_ringOk (b : Byte) {s : State} (h : s.RingOk) : (push b s).RingOk := by
  rcases push_cases b s with ⟨_, he⟩ | ⟨hroom, he⟩
  · rw [he]
    exact h
  · have hcount : fifoCount (push b s) ≤ Config.fifoCap :=
      (fifoCount_push_of_room b hroom).trans_le hroom
    obtain ⟨hwf, hbelow, _⟩ := h
    rw [he] at hcount ⊢
    exact ⟨memWrite_wf _ b hwf, memWrite_below b hbelow (slotOf_lt _), hcount⟩

/-- A push leaves the assembly buffer and the phase alone. -/
theorem push_inv (b : Byte) {s : State} (h : s.Inv) : (push b s).Inv := by
  obtain ⟨hring, hasm, hphase⟩ := (State.inv_iff s).1 h
  refine (State.inv_iff _).2 ⟨push_ringOk b hring, ?_⟩
  rcases push_cases b s with ⟨_, he⟩ | ⟨_, he⟩ <;> rw [he] <;> exact ⟨hasm, hphase⟩

theorem pollDrain_ringOk (now : Tick) {s : State} (h : s.RingOk) : (pollDrain now s).RingOk := by
  obtain ⟨hwf, hbelow, hcount⟩ := h
  have hdrain : fifoCount (pollDrain now s) = fifoCount s - drainCount (asmRoom s) s :=
    fifoCount_drain (asmRoom s) s
  exact ⟨hwf, hbelow, hdrain ▸ (Nat.sub_le _ _).trans hcount⟩

/-- What a poll's drain appends lies inside the assembly buffer (R162). -/
theorem pollDrain_asmOk (now : Tick) {s : State} (h : s.AsmOk) : (pollDrain now s).AsmOk := by
  obtain ⟨hwf, hbelow⟩ := h
  have hfits : s.asmLen + (drainBytes (asmRoom s) s).length ≤ Config.asmCap := by
    rw [drainBytes_length, ← pollDrain_asmLen now s]
    exact State.asmLen_le _
  unfold State.AsmOk
  rw [pollDrain_asm]
  exact ⟨memWriteN_wf _ _ hwf, memWriteN_below hbelow hfits⟩

theorem asmDrop_asmOk (k : Nat) {s : State} (h : s.AsmOk) : (asmDrop k s).AsmOk := by
  obtain ⟨hwf, hbelow⟩ := h
  have hfits : 0 + ((asmBytes s).drop k).length ≤ Config.asmCap := by
    have := s.asmLen_le
    simp only [List.length_drop, asmBytes_length]
    omega
  exact ⟨memWriteN_wf _ _ hwf, memWriteN_below hbelow hfits⟩

/-! ## Every way a step ends meets the invariant -/

theorem retire_inv (len : Nat) {s : State} (hring : s.RingOk) (hasm : s.AsmOk) :
    (retire len s).Inv :=
  (State.inv_iff _).2 ⟨hring, asmDrop_asmOk len hasm, rfl⟩

theorem takeFrameError_inv (p : Params) (e : FrameError) {s : State} (hring : s.RingOk)
    (hasm : s.AsmOk) : (takeFrameError p e s).Inv := by
  rw [State.inv_iff]
  rcases takeFrameError_cases p e s with ⟨k, _, _, _, he⟩ | ⟨_, he⟩
  · rw [he]
    exact ⟨hring, asmDrop_asmOk k hasm, rfl⟩
  · rw [he]
    exact ⟨hring, hasm, rfl⟩

theorem Extends.ringOk {s t : State} (hx : Extends s t) (h : s.RingOk) : t.RingOk := by
  obtain ⟨x, os, rfl⟩ := hx
  exact h

theorem Extends.asmOk {s t : State} (hx : Extends s t) (h : s.AsmOk) : t.AsmOk := by
  obtain ⟨x, os, rfl⟩ := hx
  exact h

theorem Extends.phase_eq {s t : State} (hx : Extends s t) : t.phase = s.phase := by
  obtain ⟨x, os, rfl⟩ := hx
  rfl

theorem Extends.inv {s t : State} (hx : Extends s t) (h : s.Inv) : t.Inv := by
  obtain ⟨hring, hasm, hphase⟩ := (State.inv_iff s).1 h
  exact (State.inv_iff t).2 ⟨hx.ringOk hring, hx.asmOk hasm, hx.phase_eq.trans hphase⟩

/-- An instruction answers no other state than one that differs in the register table and the outputs
only. -/
theorem extends_of_exec {i : Instr} {s t : State} (h : exec i s = .next t) : Extends s t := by
  obtain ⟨t', ht', hx⟩ := exec_extends i s
  cases ht'.symm.trans h
  exact hx

theorem State.withResult_inv {s : State} (r : PortResult) (h : s.Inv) : (s.withResult r).Inv :=
  (State.inv_iff _).2 ((State.inv_iff s).1 h)

theorem State.withPending_inv {s : State} (es : List Event) (h : s.Inv) : (s.withPending es).Inv :=
  (State.inv_iff _).2 ((State.inv_iff s).1 h)

theorem poll_inv {now : Tick} {s t : State} (h : s.Inv) (ht : poll now s = .next t) : t.Inv := by
  obtain ⟨hring, hasm, hphase⟩ := (State.inv_iff s).1 h
  have hring' := pollDrain_ringOk now hring
  have hasm' := pollDrain_asmOk now hasm
  rcases poll_cases now s with ⟨_, he⟩ | ⟨_, i, len, u, _, hu, he⟩ | ⟨_, e, _, he⟩ <;>
    cases he.symm.trans ht
  · exact (State.inv_iff _).2 ⟨hring', hasm', hphase⟩
  · have hx := extends_of_exec hu
    exact retire_inv len (hx.ringOk hring') (hx.asmOk hasm')
  · exact takeFrameError_inv _ e hring' hasm'

/-- Every port operation keeps the invariant. -/
theorem runOp_inv {op : PortOp} {s t : State} (h : s.Inv) (ht : runOp op s = .next t) : t.Inv := by
  cases op with
  | push b => cases ht; exact push_inv b h
  | poll now => exact poll_inv h ht
  | upload => exact (extends_of_exec (i := .upload) ht).inv h
  | regGet id => cases ht; exact State.withResult_inv _ h
  | regSet id v => cases ht; exact State.withResult_inv _ ((regSet_extends _ id v s).inv h)
  | drain n => cases ht

/-- Settles O46: both memories are empty, both cursors 0, and the decoder is idle. -/
theorem resetMeetsTheInvariant : Obligations.ResetMeetsTheInvariant :=
  (State.inv_iff _).2 ⟨⟨rfl, rfl, by decide⟩, ⟨rfl, rfl⟩, rfl⟩

/-- Settles O45, by what a step from an idle decoder can do. -/
theorem stepKeepsTheInvariant : Obligations.StepKeepsTheInvariant := by
  intro s t h ht
  rcases step_cases h.phase_idle with ⟨_, he⟩ | ⟨rest, _, he⟩ | ⟨_, _, _, _, _, he⟩ |
    ⟨op, rest, _, _, he⟩
  · cases he.symm.trans ht
    exact h
  · cases he.symm.trans ht
    exact State.withPending_inv rest resetMeetsTheInvariant
  · cases he.symm.trans ht
  · exact runOp_inv (State.withPending_inv rest h) (he.symm.trans ht)

end Sys2Proof.Machine
end

section
/-! PROOF. The register table and the outputs: what a stored register reads back, which steps change
the table (R22, R359), and that outputs are only appended (R36, R37). -/

namespace Sys2Proof.Machine

/-! ## A stored register reads back (R22) -/

/-- After `RegSet` of an id with a slot, the slot holds the value, whether or not it changed. -/
theorem regSet_at_same (p : Params) {id : Word} (v : Word) (s : State) (h7 : 7 ≤ id.toNat)
    (h12 : id.toNat < 12) : (regSet p id v s).x.at id.toNat = v := by
  rcases RegId.ofNum_cases id.toNat with ⟨r, hr, _⟩ | ⟨hge, _⟩
  · have hstored : r.stored = true := r.stored_iff.2 (hr.symm ▸ h7)
    rw [← hr, Regs.at_num]
    rcases regSet_cases p id v s with ⟨r', hr', _, _, _, he⟩ | ⟨hsame, _, he⟩
    · cases RegId.num_injective (hr'.trans hr.symm)
      rw [he]
      exact Regs.get_set_same s.x v hstored
    · rw [he]
      exact hsame r hr hstored
  · omega

/-- A `RegSet` step: the setter, its Boolean result, the event taken. -/
theorem step_regSet {id v : Word} {s : State} {rest : List Event}
    (h : s.takes (.call .poll (.regSet id v)) rest) :
    step s = .next ((regSet Config.params id v (s.withPending rest)).withResult
      (.changed (regSetChanges id v (s.withPending rest)))) :=
  step_of_takes h

/-- A `RegGet` step: the value read as the result, the event taken. -/
theorem step_regGet {id : Word} {s : State} {rest : List Event}
    (h : s.takes (.call .poll (.regGet id)) rest) :
    step s = .next ((s.withPending rest).withResult (.value (s.x.at id.toNat))) :=
  step_of_takes h

theorem Extends.pending_eq {s t : State} (hx : Extends s t) : t.pending = s.pending := by
  obtain ⟨x, os, rfl⟩ := hx
  rfl

/-- Settles O13: the `RegGet` step reads the slot the `RegSet` step before it left. -/
theorem storedRegisterReadsBackVerbatim : Obligations.StoredRegisterReadsBackVerbatim := by
  intro id v s rest h7 h12 htakes
  have hx := regSet_extends Config.params id v
    (s.withPending (.call .poll (.regGet id) :: rest))
  refine ⟨_, _, step_regSet htakes,
    step_regGet ⟨hx.phase_eq.trans htakes.1, hx.pending_eq⟩, ?_, rfl⟩
  exact congrArg PortResult.value (regSet_at_same Config.params v _ h7 h12)

/-! ## Which steps change the register table -/

theorem push_x (b : Byte) (s : State) : (push b s).x = s.x := by
  rcases push_cases b s with ⟨_, he⟩ | ⟨_, he⟩ <;> rw [he] <;> rfl

theorem takeFrameError_x (p : Params) (e : FrameError) (s : State) :
    (takeFrameError p e s).x = s.x := by
  rcases takeFrameError_cases p e s with ⟨k, _, _, _, he⟩ | ⟨_, he⟩ <;> rw [he] <;> rfl

/-- R68: a read request leaves the register table alone. -/
theorem readCommand_x (p : Params) (address count : Word) (s : State) :
    (readCommand p address count s).x = s.x := by
  unfold readCommand
  split <;> rfl

/-- What parses is one of the two requests (R200). -/
theorem parse_ok_isRequest {p : Params} {buf : List Byte} {i : Instr} {len : Nat}
    (h : parse p buf = .ok (i, len)) :
    (∃ address count, i = .rdreq address count) ∨
      ∃ address count data, i = .wrreq address count data := by
  obtain ⟨_, _, hi, _⟩ := decode_ok (parse_ok.1 h).1
  rcases requestOf_cases hi with ⟨_, rfl⟩ | ⟨_, rfl⟩
  · exact .inl ⟨_, _, rfl⟩
  · exact .inr ⟨_, _, _, rfl⟩

/-- A poll changes the register table only where it is ready and finds a good write request. -/
theorem poll_x {now : Tick} {s t : State} (ht : poll now s = .next t) :
    t.x = s.x ∨ ready (pollDrain now s) = true ∧ ∃ address count data len,
      parse Config.params (asmBytes (pollDrain now s)) = .ok (.wrreq address count data, len) := by
  rcases poll_cases now s with ⟨_, he⟩ | ⟨hready, i, len, u, hparse, hu, he⟩ | ⟨_, e, _, he⟩ <;>
    cases he.symm.trans ht
  · exact .inl rfl
  · rcases parse_ok_isRequest hparse with ⟨address, count, rfl⟩ | ⟨address, count, data, rfl⟩
    · cases hu
      exact .inl (readCommand_x _ address count _)
    · exact .inr ⟨hready, address, count, data, len, hparse⟩
  · exact .inl (takeFrameError_x _ e _)

/-- Settles O53, by what a step from an idle decoder can do. -/
theorem registersChangeOnlyThroughTheSetter : Obligations.RegistersChangeOnlyThroughTheSetter := by
  intro s t h ht
  rcases step_cases h.phase_idle with ⟨_, he⟩ | ⟨rest, hpend, _⟩ | ⟨_, _, _, _, _, he⟩ |
    ⟨op, rest, hpend, _, he⟩
  · cases he.symm.trans ht
    exact .inl rfl
  · exact .inr (.inl ⟨rest, hpend⟩)
  · cases he.symm.trans ht
  · have hop := he.symm.trans ht
    cases op with
    | push b => cases hop; exact .inl (push_x b _)
    | poll now =>
      rcases poll_x hop with hx | ⟨hready, address, count, data, len, hparse⟩
      · exact .inl hx
      · exact .inr (.inr (.inr ⟨now, rest, address, count, data, len, hpend, hready, hparse⟩))
    | upload => cases hop; exact .inl rfl
    | regGet id => cases hop; exact .inl rfl
    | regSet id v => exact .inr (.inr (.inl ⟨id, v, rest, hpend⟩))
    | drain n => cases hop

/-! ## Outputs are only appended -/

theorem Extends.out_prefix {s t : State} (hx : Extends s t) : s.out <+: t.out := by
  obtain ⟨x, os, rfl⟩ := hx
  exact List.prefix_append _ _

theorem push_out (b : Byte) (s : State) : (push b s).out = s.out := by
  rcases push_cases b s with ⟨_, he⟩ | ⟨_, he⟩ <;> rw [he] <;> rfl

/-- The Resync procedure emits the echo of what it discards, or nothing (R175, R177). -/
theorem resyncProc_out_prefix (p : Params) (s : State) : s.out <+: (resyncProc p s).out := by
  rcases resyncProc_cases p s with ⟨k, _, _, _, he⟩ | ⟨_, he⟩ <;> rw [he]
  · exact List.prefix_rfl
  · exact List.prefix_append _ _

theorem takeFrameError_out_prefix (p : Params) (e : FrameError) (s : State) :
    s.out <+: (takeFrameError p e s).out :=
  resyncProc_out_prefix p (s.withPhase .resync)

theorem runValidated_out_prefix {s t : State} (ht : runValidated s = .next t) :
    s.out <+: t.out := by
  rcases runValidated_cases s with ⟨i, len, u, _, _, hx, he⟩ | ⟨e, _, he⟩ <;>
    cases he.symm.trans ht
  · exact hx.out_prefix
  · exact takeFrameError_out_prefix _ e s


/-- A decode attempt appends outputs, in whatever phase it begins. -/
theorem decodeAttempt_out_prefix {s t : State} (ht : decodeAttempt s = .next t) :
    s.out <+: t.out := by
  cases hphase : s.phase with
  | accumulating =>
    simp only [decodeAttempt, hphase] at ht
    cases ht
    exact List.prefix_rfl
  | frameReady =>
    rcases decodeAttempt_frameReady hphase with ⟨i, len, u, _, _, hx, he⟩ | ⟨e, _, he⟩ <;>
      cases he.symm.trans ht
    · exact hx.out_prefix
    · exact takeFrameError_out_prefix _ e s
  | validated =>
    simp only [decodeAttempt, hphase] at ht
    exact runValidated_out_prefix ht
  | resync =>
    simp only [decodeAttempt, hphase] at ht
    cases ht
    exact resyncProc_out_prefix _ s

theorem poll_out_prefix {now : Tick} {s t : State} (ht : poll now s = .next t) :
    s.out <+: t.out := by
  cases hready : ready (pollDrain now s) with
  | false =>
    cases (poll_of_not_ready hready).symm.trans ht
    exact List.prefix_rfl
  | true =>
    exact decodeAttempt_out_prefix (s := (pollDrain now s).withPhase .frameReady)
      ((poll_of_ready hready).symm.trans ht)

theorem runOp_out_prefix {op : PortOp} {s t : State} (ht : runOp op s = .next t) :
    s.out <+: t.out := by
  cases op with
  | push b => cases ht; rw [push_out]
  | poll now => exact poll_out_prefix ht
  | upload => exact (extends_of_exec (i := .upload) ht).out_prefix
  | regGet id => cases ht; exact List.prefix_rfl
  | regSet id v => cases ht; exact (regSet_extends _ id v s).out_prefix
  | drain n => cases ht

/-- Inside a poll a step finishes the decode attempt (R296). -/
theorem step_of_phase_ne {s : State} (h : s.phase ≠ .accumulating) : step s = decodeAttempt s := by
  unfold step
  cases hphase : s.phase with
  | accumulating => exact absurd hphase h
  | frameReady => rfl
  | validated => rfl
  | resync => rfl

/-- Settles O54, by what a step can do from an idle decoder and inside a poll. -/
theorem outputsAreOnlyAppended : Obligations.OutputsAreOnlyAppended := by
  intro s t ht hpower
  by_cases hphase : s.phase = .accumulating
  · rcases step_cases hphase with ⟨_, he⟩ | ⟨rest, hpend, _⟩ | ⟨_, _, _, _, _, he⟩ |
      ⟨op, rest, _, _, he⟩
    · cases he.symm.trans ht
      exact List.prefix_rfl
    · exact absurd (by rw [hpend]; rfl) hpower
    · cases he.symm.trans ht
    · exact runOp_out_prefix (s := s.withPending rest) (he.symm.trans ht)
  · exact decodeAttempt_out_prefix ((step_of_phase_ne hphase).symm.trans ht)

end Sys2Proof.Machine
end

section
/-! PROOF. Register entries and their encoding (R31, R32, R99, R102), and the width of `asm_len`
(R28). -/

namespace Sys2Proof

/-! ## The encoding of a register entry -/

/-- `BE16(be16(v)) = v`, with nothing behind. -/
@[simp] theorem be16Val_be16_self (v : Word) : be16Val (be16 v) = v := by
  simpa using be16Val_be16 v []

/-- `BE32(be32(v)) = v`, with nothing behind. -/
@[simp] theorem be32Val_be32_self (v : Word32) : be32Val (be32 v) = v := by
  simpa using be32Val_be32 v []

theorem RegId.toNat_ofNat_num (r : RegId) : (BitVec.ofNat 16 r.num).toNat = r.num :=
  (BitVec.toNat_ofNat _ _).trans (Nat.mod_eq_of_lt (r.num_lt.trans (by decide)))

/-- The entry decoder on an address followed by a payload (R31, R102). -/
theorem decodeEntry_address_append (r : RegId) (payload : List Byte) :
    decodeEntry (be16Val (be16 (BitVec.ofNat 16 r.num) ++ payload)).toNat
      ((be16 (BitVec.ofNat 16 r.num) ++ payload).drop 2) = some (entryOf r payload) := by
  have hdrop : (be16 (BitVec.ofNat 16 r.num) ++ payload).drop 2 = payload :=
    List.drop_left' (be16_length _)
  rw [hdrop, be16Val_be16, RegId.toNat_ofNat_num, decodeEntry, RegId.ofNum_num]
  rfl

/-- The encoding of a register entry is the address of an id, then a payload of which that id's entry
is the instruction again (R31, R99). -/
theorem encode_entry_eq (p : Params) {i : Instr} (h : i.isEntry = true) :
    ∃ r payload, encode p i = be16 (BitVec.ofNat 16 (RegId.num r)) ++ payload ∧
      entryOf r payload = i := by
  cases i with
  | rdreq address count => cases h
  | wrreq address count data => cases h
  | rdrsp values => cases h
  | wrrsp address count => cases h
  | upload => cases h
  | regUnassigned0 v => exact ⟨.unassigned0, be16 v, rfl, by simp [entryOf]⟩
  | regPowerOff v => exact ⟨.powerOff, be16 v, rfl, by simp [entryOf]⟩
  | regSetAlarm h0 h1 =>
    have hrest : (be16 h0 ++ be16 h1).drop 2 = be16 h1 := List.drop_left' (be16_length h0)
    exact ⟨.setAlarm, be16 h0 ++ be16 h1, rfl, by simp [entryOf, hrest]⟩
  | regDeleteAlarm v => exact ⟨.deleteAlarm, be16 v, rfl, by simp [entryOf]⟩
  | regExecShortcut v => exact ⟨.execShortcut, be16 v, rfl, by simp [entryOf]⟩
  | regSetUtc ts => exact ⟨.setUtc, be32 ts, rfl, by simp [entryOf]⟩
  | regUnassigned6 v => exact ⟨.unassigned6, be16 v, rfl, by simp [entryOf]⟩
  | regHeatStatus v => exact ⟨.heatStatus, be16 v, rfl, by simp [entryOf]⟩
  | regHeatLevel v => exact ⟨.heatLevel, be16 v, rfl, by simp [entryOf]⟩
  | regHeatTimer v => exact ⟨.heatTimer, be16 v, rfl, by simp [entryOf]⟩
  | regShortcut1 v => exact ⟨.shortcut1, be16 v, rfl, by simp [entryOf]⟩
  | regShortcut2 v => exact ⟨.shortcut2, be16 v, rfl, by simp [entryOf]⟩

end Sys2Proof

namespace Sys2Proof.Machine

/-- Settles O27: an encoded entry is an address and a payload, and those decode to the entry. -/
theorem encodedEntriesDecodeBack : Obligations.EncodedEntriesDecodeBack := by
  intro p i h
  obtain ⟨r, payload, hencode, hentry⟩ := encode_entry_eq p h
  rw [hencode, decodeEntry_address_append, hentry]

/-! ## The alarm record (R32) -/

theorem exec_regSetAlarm (h0 h1 : Word) (s : State) :
    exec (.regSetAlarm h0 h1) s = .next (s.append [.action (.setAlarm (decodeAlarm h0 h1))]) :=
  rfl

/-- A field of `len` bits from bit `start` up, as a quotient and a remainder. -/
theorem extractLsb'_toNat_eq_div_mod (v : Word) (start len : Nat) :
    (v.extractLsb' start len).toNat = v.toNat / 2 ^ start % 2 ^ len := by
  rw [BitVec.extractLsb'_toNat, Nat.shiftRight_eq_div_pow]

/-- A field that reaches up to bit 15 needs no remainder. -/
theorem extractLsb'_toNat_eq_div (v : Word) {start len : Nat} (h : start + len = 16) :
    (v.extractLsb' start len).toNat = v.toNat / 2 ^ start := by
  rw [extractLsb'_toNat_eq_div_mod, Nat.mod_eq_of_lt]
  rw [Nat.div_lt_iff_lt_mul (Nat.two_pow_pos start), ← Nat.pow_add, Nat.add_comm, h]
  exact v.isLt

/-- Settles O5: the fields are `extractLsb'` ranges and single bits of the two halves. -/
theorem setAlarmEntryDecodesTheHalves : Obligations.SetAlarmEntryDecodesTheHalves := by
  intro h0 h1 s
  refine ⟨decodeAlarm h0 h1, exec_regSetAlarm h0 h1 s, ?_, ?_, ?_, ?_, ?_, ?_, ?_⟩
  · exact (extractLsb'_toNat_eq_div_mod h0 0 6).trans (congrArg (· % 64) (Nat.div_one _))
  · exact extractLsb'_toNat_eq_div_mod h0 6 5
  · exact extractLsb'_toNat_eq_div h0 (start := 11) (len := 5) rfl
  · exact (Nat.toNat_testBit h1.toNat 0).trans (congrArg (· % 2) (Nat.div_one _))
  · exact Nat.toNat_testBit h1.toNat 1
  · exact extractLsb'_toNat_eq_div_mod h1 2 7
  · exact extractLsb'_toNat_eq_div h1 (start := 9) (len := 7) rfl

/-! ## The width of `asm_len` -/

/-- A word narrower than `ceil(log2(ASM_CAP + 1))` bits does not hold `ASM_CAP`. -/
theorem two_pow_le_asmCap {w : Nat} (h : w < Config.asmLenBits) : 2 ^ w ≤ Config.asmCap :=
  Nat.le_of_lt_succ (Nat.pow_lt_of_lt_clog h)

/-- Settles O59: the length is bounded by its type, and a full buffer needs the whole width. -/
theorem assemblyLengthFitsItsWidth : Obligations.AssemblyLengthFitsItsWidth := by
  refine ⟨fun s => ⟨s.asmLen_le, s.asmLenWord_toNat, asmBytes_length s⟩, fun w hw => ?_⟩
  refine ⟨State.reset.withAsm [] (Fin.last _), ?_⟩
  have hlt : (BitVec.ofNat w Config.asmCap).toNat < Config.asmCap :=
    (BitVec.isLt _).trans_le (two_pow_le_asmCap hw)
  exact Nat.ne_of_lt hlt

end Sys2Proof.Machine
end

section
/-! PROOF. The instructions that may not store leave the register table alone (R31, R68). -/

namespace Sys2Proof.Machine

/-! ## The operations that only send or emit -/

@[simp] theorem sendReadResponse_x (p : Params) (values : List Word) (s : State) :
    (sendReadResponse p values s).x = s.x := rfl

@[simp] theorem sendWriteResponse_x (p : Params) (address count : Word) (s : State) :
    (sendWriteResponse p address count s).x = s.x := rfl

/-- R68: the upload reads the table through `RegGet` and writes none of it. -/
@[simp] theorem upload_x (p : Params) (s : State) : (upload p s).x = s.x := rfl

/-- R218, R219: the dispatch of a sub-threshold register stores nothing. -/
@[simp] theorem writeTriggered_x (p : Params) (r : RegId) (v : Word) (s : State) :
    (writeTriggered p r v s).x = s.x := rfl

@[simp] theorem writeAlarm_x (h0 h1 : Word) (s : State) : (writeAlarm h0 h1 s).x = s.x := rfl

@[simp] theorem writeClock_x (ts : Word32) (s : State) : (writeClock ts s).x = s.x := rfl

/-! ## The instructions -/

/-- Settles O56: each instruction that may not store is a read command, a transmission, or the entry
of a register without a slot. -/
theorem readsLeaveTheRegistersAlone : Obligations.ReadsLeaveTheRegistersAlone := by
  intro i s h
  cases i with
  | rdreq address count => exact ⟨_, rfl, readCommand_x _ address count s⟩
  | wrreq address count data => cases h
  | rdrsp values => exact ⟨_, rfl, sendReadResponse_x _ values s⟩
  | wrrsp address count => exact ⟨_, rfl, sendWriteResponse_x _ address count s⟩
  | upload => exact ⟨_, rfl, upload_x _ s⟩
  | regUnassigned0 v => exact ⟨_, rfl, writeTriggered_x _ .unassigned0 v s⟩
  | regPowerOff v => exact ⟨_, rfl, writeTriggered_x _ .powerOff v s⟩
  | regSetAlarm h0 h1 => exact ⟨_, rfl, writeAlarm_x h0 h1 s⟩
  | regDeleteAlarm v => exact ⟨_, rfl, writeTriggered_x _ .deleteAlarm v s⟩
  | regExecShortcut v => exact ⟨_, rfl, writeTriggered_x _ .execShortcut v s⟩
  | regSetUtc ts => exact ⟨_, rfl, writeClock_x ts s⟩
  | regUnassigned6 v => exact ⟨_, rfl, writeTriggered_x _ .unassigned6 v s⟩
  | regHeatStatus v => cases h
  | regHeatLevel v => cases h
  | regHeatTimer v => cases h
  | regShortcut1 v => cases h
  | regShortcut2 v => cases h

end Sys2Proof.Machine
end

section
/-! PROOF. Frames and their bytes: requests at the block and responses at the host decode to what
was encoded, and whatever parses is an encoding (R90, R92 to R95, R169, R170). -/

namespace Sys2Proof

/-! ## Bytes and the checksum -/

/-- `be16(BE16(s))` gives the first two bytes of `s` back. -/
theorem be16_be16Val {s : List Byte} (h : 2 ≤ s.length) : be16 (be16Val s) = s.take 2 := by
  match s, h with
  | a :: b :: rest, _ => exact be16_append a b

theorem sealFrame_length (p : Params) (body : List Byte) :
    (sealFrame p body).length = body.length + 2 := by
  rw [sealFrame, List.length_append, be16_length]

/-- The checksum of a frame is good exactly when sealing its body gives the frame back (R90,
R170). -/
theorem checksumOk_iff (p : Params) {f : List Byte} (h : 2 ≤ f.length) :
    checksumOk p f = true ↔ sealFrame p (f.take (f.length - 2)) = f := by
  have htail : be16 (be16Val (f.drop (f.length - 2))) = f.drop (f.length - 2) := by
    rw [be16_be16Val (by rw [List.length_drop]; omega), List.take_of_length_le]
    rw [List.length_drop]; omega
  rw [checksumOk, beq_iff_eq, sealFrame]
  constructor
  · intro hck
    rw [hck, htail, List.take_append_drop]
  · intro hseal
    have hck : be16 (p.ck (f.take (f.length - 2))) = f.drop (f.length - 2) :=
      List.append_cancel_left (hseal.trans (List.take_append_drop _ f).symm)
    rw [← hck, be16Val_be16_self]

/-- A sealed frame has a good checksum (R90). -/
theorem checksumOk_sealFrame (p : Params) (body : List Byte) :
    checksumOk p (sealFrame p body) = true := by
  have hlen := sealFrame_length p body
  have hbody : (sealFrame p body).take ((sealFrame p body).length - 2) = body :=
    List.take_left' (by omega)
  exact (checksumOk_iff p (by omega)).2 (congrArg (sealFrame p) hbody)

/-- The first six bytes of a frame are the two fixed ones and the two words (R92, R94). -/
theorem take_six_eq {f : List Byte} (h : 6 ≤ f.length) :
    f.take 2 ++ be16 (be16Val (f.drop 2)) ++ be16 (be16Val (f.drop 4)) = f.take 6 := by
  rw [be16_be16Val (by rw [List.length_drop]; omega),
    be16_be16Val (by rw [List.length_drop]; omega), ← List.take_add, ← List.take_add]

/-- The two words after the fixed bytes of a frame (R92, R94, R95). -/
theorem be16Val_drop_two (m c : Byte) (address count : Word) (rest : List Byte) :
    be16Val (([m, c] ++ be16 address ++ be16 count ++ rest).drop 2) = address :=
  be16Val_be16 address (be16 count ++ rest)

theorem be16Val_drop_four (m c : Byte) (address count : Word) (rest : List Byte) :
    be16Val (([m, c] ++ be16 address ++ be16 count ++ rest).drop 4) = count :=
  be16Val_be16 count rest

/-- A length up to 255 fits the byte `LL` (R93, R94). -/
theorem toNat_ofNat_byte {n : Nat} (h : n ≤ 255) : (BitVec.ofNat 8 n).toNat = n :=
  (BitVec.toNat_ofNat n 8).trans (Nat.mod_eq_of_lt (Nat.lt_succ_of_le h))

/-! ## Requests (R92, R94, R169) -/

/-- A read request decodes whatever its two checksum bytes are and whatever follows (R92, R169). -/
theorem decode_read_frame (address count : Word) {rest : List Byte} (h : 2 ≤ rest.length) :
    decode ([Config.marker, Config.cmdRead] ++ be16 address ++ be16 count ++ rest) =
      .ok (.rdreq address count, 8) := by
  match rest, h with
  | k0 :: k1 :: more, _ =>
    have haddress := be16Val_drop_two Config.marker Config.cmdRead address count [k0, k1]
    have hcount := be16Val_drop_four Config.marker Config.cmdRead address count [k0, k1]
    exact decode_of_requestOf rfl (Nat.le_add_left 8 more.length)
      (congrArg some (congrArg₂ Instr.rdreq haddress hcount))

/-- Byte 6 of a write request is `LL`, from which its length is learnt (R94, R96). -/
theorem frameLength_write (address count : Word) (ll : Byte) (rest : List Byte) :
    frameLength (wrrspBody address count ++ [ll] ++ rest) = .ok (9 + ll.toNat) := by
  have hlen : ¬ (wrrspBody address count ++ [ll] ++ rest).length < 7 :=
    Nat.not_lt.2 (Nat.le_add_left 7 rest.length)
  exact if_neg (t := Except.error .truncated) hlen

/-- The fields of a whole write request (R94, R210). -/
theorem requestOf_write (address count : Word) {ll : Byte} {data : List Byte} (rest : List Byte)
    (hLL : ll.toNat = data.length) :
    requestOf (wrrspBody address count ++ [ll] ++ (data ++ rest)) =
      some (.wrreq address count data) := by
  have haddress : be16Val ((wrrspBody address count ++ [ll] ++ (data ++ rest)).drop 2) = address :=
    be16Val_drop_two _ _ address count (ll :: (data ++ rest))
  have hcount : be16Val ((wrrspBody address count ++ [ll] ++ (data ++ rest)).drop 4) = count :=
    be16Val_drop_four _ _ address count (ll :: (data ++ rest))
  have hdata : (data ++ rest).take ll.toNat = data := List.take_left' hLL.symm
  calc requestOf (wrrspBody address count ++ [ll] ++ (data ++ rest))
      = some (.wrreq _ _ ((data ++ rest).take ll.toNat)) := rfl
    _ = some (.wrreq address count data) := by rw [haddress, hcount, hdata]

/-- A write request decodes whatever its two checksum bytes are and whatever follows (R94, R169). -/
theorem decode_write_frame (address count : Word) {data rest : List Byte}
    (hdata : data.length ≤ 255) (h : 2 ≤ rest.length) :
    decode (wrrspBody address count ++ [BitVec.ofNat 8 data.length] ++ (data ++ rest)) =
      .ok (.wrreq address count data, 9 + data.length) := by
  have hLL := toNat_ofNat_byte hdata
  have hhead : (wrrspBody address count ++ [BitVec.ofNat 8 data.length]).length = 7 := rfl
  have hlen := frameLength_write address count (BitVec.ofNat 8 data.length) (data ++ rest)
  rw [hLL] at hlen
  refine decode_of_requestOf hlen ?_ ?_
  · rw [List.length_append, hhead, List.length_append]; omega
  · rw [List.take_append, hhead, List.take_of_length_le (by omega), List.take_append,
      List.take_of_length_le (l := data) (by omega)]
    exact requestOf_write address count _ hLL

/-- A decoded frame that was sealed parses (R170). -/
theorem parse_sealFrame_append {p : Params} {body more : List Byte} {i : Instr} {len : Nat}
    (h : decode (sealFrame p body ++ more) = .ok (i, len)) (hlen : body.length + 2 = len) :
    parse p (sealFrame p body ++ more) = .ok (i, (sealFrame p body).length) := by
  rw [sealFrame_length, hlen]
  refine parse_ok.2 ⟨h, ?_⟩
  rw [List.take_left' ((sealFrame_length p body).trans hlen)]
  exact checksumOk_sealFrame p body

theorem parse_encode_rdreq (p : Params) (address count : Word) (more : List Byte) :
    parse p (encode p (.rdreq address count) ++ more) =
      .ok (.rdreq address count, (encode p (.rdreq address count)).length) := by
  refine parse_sealFrame_append ?_ (len := 8) rfl
  rw [sealFrame, List.append_assoc]
  exact decode_read_frame address count (by simp)

theorem parse_encode_wrreq (p : Params) (address count : Word) {data : List Byte}
    (hdata : data.length ≤ 255) (more : List Byte) :
    parse p (encode p (.wrreq address count data) ++ more) =
      .ok (.wrreq address count data, (encode p (.wrreq address count data)).length) := by
  refine parse_sealFrame_append (len := 9 + data.length) ?_ ?_
  · rw [sealFrame, List.append_assoc, List.append_assoc _ data]
    exact decode_write_frame address count hdata (by simp)
  · simp [wrrspBody]; omega

/-- Settles O24: the two requests, each decoded from its layout, with the checksum of its body. -/
theorem encodedRequestsParseBack : Obligations.EncodedRequestsParseBack := by
  intro p i more hwf hrequest
  match i, hrequest with
  | .rdreq address count, _ => exact parse_encode_rdreq p address count more
  | .wrreq address count data, _ =>
    exact parse_encode_wrreq p address count (of_decide_eq_true hwf) more

/-! ## What parses is an encoding (R92, R94) -/

/-- A whole read request is the encoding of its fields, but for the checksum (R92). -/
theorem encode_rdreq_of_frame (p : Params) {f : List Byte} (h6 : 6 ≤ f.length)
    (hfixed : f.take 2 = [Config.marker, Config.cmdRead]) :
    encode p (.rdreq (be16Val (f.drop 2)) (be16Val (f.drop 4))) = sealFrame p (f.take 6) := by
  rw [encode, ← hfixed, take_six_eq h6]

/-- A whole write request is the encoding of its fields, but for the checksum (R94). -/
theorem encode_wrreq_of_frame (p : Params) {f : List Byte}
    (h : f.length = 9 + (f.getD 6 0).toNat)
    (hfixed : f.take 2 = [Config.marker, Config.cmdWrite]) :
    encode p (.wrreq (be16Val (f.drop 2)) (be16Val (f.drop 4))
        ((f.drop 7).take (f.getD 6 0).toNat)) =
      sealFrame p (f.take (7 + (f.getD 6 0).toNat)) := by
  have h6 : 6 < f.length := by omega
  have hdata : ((f.drop 7).take (f.getD 6 0).toNat).length = (f.getD 6 0).toNat := by
    rw [List.length_take, List.length_drop]; omega
  have hll : BitVec.ofNat 8 (f.getD 6 0).toNat = f[6] := by
    rw [BitVec.ofNat_toNat, BitVec.setWidth_eq, List.getD_eq_getElem f 0 h6]
  rw [encode, hdata, hll, wrrspBody, ← hfixed, take_six_eq (by omega), List.take_append_getElem,
    ← List.take_add]

/-- The whole frame holds its two fixed bytes and the `LL` its length is learnt from (R96, R165 to
R169). -/
theorem take_of_frameLength_ok {buf : List Byte} {len : Nat} (h : frameLength buf = .ok len) :
    ∃ rest, (buf.take len = Config.marker :: Config.cmdRead :: rest ∧ len = 8) ∨
      (buf.take len = Config.marker :: Config.cmdWrite :: rest ∧
        len = 9 + ((buf.take len).getD 6 0).toNat) := by
  obtain ⟨rest, ⟨rfl, rfl⟩ | ⟨rfl, _, hlen⟩⟩ := frameLength_ok h
  · exact ⟨rest.take 6, .inl ⟨rfl, rfl⟩⟩
  · obtain ⟨n, rfl⟩ := Nat.exists_eq_add_of_le' (show 7 ≤ len by omega)
    refine ⟨rest.take (n + 5), .inr ⟨rfl, ?_⟩⟩
    rwa [List.getD_eq_getElem?_getD, List.getElem?_take_of_lt (by omega),
      ← List.getD_eq_getElem?_getD]

/-- A decoded request is well formed, and its encoding is the decoded frame, but for the checksum
(R92, R94). -/
theorem decode_ok_encode (p : Params) {buf : List Byte} {i : Instr} {len : Nat}
    (h : decode buf = .ok (i, len)) :
    i.wf = true ∧ i.isRequest = true ∧
      encode p i = sealFrame p ((buf.take len).take (len - 2)) := by
  obtain ⟨hlen, hle, hreq, _⟩ := decode_ok h
  have htake : (buf.take len).length = len := List.length_take_of_le hle
  obtain ⟨rest, ⟨hframe, rfl⟩ | ⟨hframe, hll⟩⟩ := take_of_frameLength_ok hlen
  · rw [hframe] at hreq htake ⊢
    cases hreq
    exact ⟨rfl, rfl, encode_rdreq_of_frame p (by omega) rfl⟩
  · rw [hframe] at hreq htake hll ⊢
    cases hreq
    have hbody : len - 2 = 7 + ((Config.marker :: Config.cmdWrite :: rest).getD 6 0).toNat := by
      omega
    have hwf : (((Config.marker :: Config.cmdWrite :: rest).drop 7).take
        ((Config.marker :: Config.cmdWrite :: rest).getD 6 0).toNat).length ≤ 255 :=
      (List.length_take_le _ _).trans (Nat.le_of_lt_succ (BitVec.isLt _))
    rw [hbody]
    exact ⟨decide_eq_true hwf, rfl, encode_wrreq_of_frame p (by omega) rfl⟩

/-- Settles O25: what is decoded encodes back but for the checksum, and the checksum is good. -/
theorem parsedBytesAreTheEncoding : Obligations.ParsedBytesAreTheEncoding := by
  intro p buf i len h
  obtain ⟨hdecode, hck⟩ := parse_ok.1 h
  obtain ⟨_, hle, _, h8⟩ := decode_ok hdecode
  obtain ⟨hwf, hrequest, hencode⟩ := decode_ok_encode p hdecode
  have htake : (buf.take len).length = len := List.length_take_of_le hle
  have hseal := (checksumOk_iff p (by omega)).1 hck
  rw [htake] at hseal
  exact ⟨hwf, hrequest, hle, hencode.trans hseal⟩

/-! ## Responses at the host (R93, R95, C6) -/

/-- A host reads the values of a read response, whatever its two checksum bytes are (R93). -/
theorem decodeResponse_read_frame {values : List Word} (h1 : 1 ≤ values.length)
    (h127 : values.length ≤ 127) {ck : List Byte} (hck : ck.length = 2) :
    decodeResponse (rdrspBody values ++ ck) = some (.rdrsp values) := by
  have hLL : (BitVec.ofNat 8 (2 * values.length)).toNat = 2 * values.length :=
    toNat_ofNat_byte (by omega)
  have hlen : (rdrspBody values ++ ck).length = 5 + 2 * values.length := by
    rw [rdrspBody, List.length_append, List.length_append, flatMap_be16_length, hck]
    simp only [List.length_cons, List.length_nil]
    omega
  have hvalues : (values.flatMap be16 ++ ck).take (2 * values.length) = values.flatMap be16 :=
    List.take_left' (flatMap_be16_length values)
  calc decodeResponse (rdrspBody values ++ ck)
      = let ll := (BitVec.ofNat 8 (2 * values.length)).toNat
        if (rdrspBody values ++ ck).length = 5 + ll ∧ ll % 2 = 0 ∧ 0 < ll then
          some (.rdrsp (wordsOf ((values.flatMap be16 ++ ck).take ll)))
        else none := rfl
    _ = some (.rdrsp (wordsOf ((values.flatMap be16 ++ ck).take (2 * values.length)))) := by
      rw [hLL]
      exact if_pos ⟨hlen, Nat.mul_mod_right 2 _, by omega⟩
    _ = some (.rdrsp values) := by rw [hvalues, wordsOf_flatMap_be16]

/-- A host reads the address and count of a write response, whatever its two checksum bytes are
(R95). -/
theorem decodeResponse_write_frame (address count : Word) {ck : List Byte} (hck : ck.length = 2) :
    decodeResponse (wrrspBody address count ++ ck) = some (.wrrsp address count) := by
  have hlen : (wrrspBody address count ++ ck).length = 8 := by
    rw [List.length_append, hck]; rfl
  have haddress : be16Val ((wrrspBody address count ++ ck).drop 2) = address :=
    be16Val_drop_two Config.marker Config.cmdWrite address count ck
  have hcount : be16Val ((wrrspBody address count ++ ck).drop 4) = count :=
    be16Val_drop_four Config.marker Config.cmdWrite address count ck
  calc decodeResponse (wrrspBody address count ++ ck)
      = if (wrrspBody address count ++ ck).length = 8 then
          some (.wrrsp (be16Val ((wrrspBody address count ++ ck).drop 2))
            (be16Val ((wrrspBody address count ++ ck).drop 4)))
        else none := rfl
    _ = some (.wrrsp address count) := by rw [if_pos hlen, haddress, hcount]

/-- Settles O26: the two responses are sealed frames, each decoded from its layout. -/
theorem encodedResponsesDecodeBackAtTheHost :
    Obligations.EncodedResponsesDecodeBackAtTheHost := by
  intro p i hwf hresponse
  match i, hresponse with
  | .rdrsp values, _ =>
    obtain ⟨h1, h127⟩ := Bool.and_eq_true_iff.1 hwf
    exact ⟨decodeResponse_read_frame (of_decide_eq_true h1) (of_decide_eq_true h127)
      (be16_length _), checksumOk_sealFrame p _⟩
  | .wrrsp address count, _ =>
    exact ⟨decodeResponse_write_frame address count (be16_length _), checksumOk_sealFrame p _⟩

/-! ## Written-out frames and table words (R31, R92, R94, R102) -/

/-- Settles O28: the frames are the layouts of R92 and R94 with two more bytes, and the table words
are evaluated. -/
theorem writtenOutWordsDecode : Obligations.WrittenOutWordsDecode := by
  refine ⟨rfl, rfl, rfl, rfl, rfl, ?_, ?_⟩
  · exact decode_read_frame 7 5 (rest := [0x08, 0x34]) (by decide)
  · exact decode_write_frame 8 2 (data := [0x00, 0x02, 0x00, 0x1E]) (rest := [0xC1, 0xD3])
      (by decide) (by decide)

end Sys2Proof
end

section
/-! PROOF. The packed alarm record at the host (R100), and the responses executed (R93, R95). -/

namespace Sys2Proof.Machine

/-! ## The alarm record (R32, R100) -/

/-- The stated sum of the first half fits 16 bits. -/
theorem encodeAlarm_fst_toNat (r : AlarmRecord) :
    (encodeAlarm r).1.toNat = r.minute.toNat + r.hour.toNat * 64 + r.alarmId.toNat * 2048 := by
  refine (BitVec.toNat_ofNat _ 16).trans (Nat.mod_eq_of_lt ?_)
  omega

/-- The stated sum of the second half fits 16 bits. -/
theorem encodeAlarm_snd_toNat (r : AlarmRecord) :
    (encodeAlarm r).2.toNat = r.enabled.toNat + r.repeats.toNat * 2 + r.weekdays.toNat * 4 +
      r.ringtone.toNat * 512 := by
  have henabled := Bool.toNat_lt r.enabled
  have hrepeats := Bool.toNat_lt r.repeats
  refine (BitVec.toNat_ofNat _ 16).trans (Nat.mod_eq_of_lt ?_)
  omega

/-- The bit at position `i` of a word is its `i`-th binary digit. -/
theorem getLsbD_eq_of_div_mod {v : Word} {i : Nat} {b : Bool}
    (h : v.toNat / 2 ^ i % 2 = b.toNat) : v.getLsbD i = b := by
  rw [← BitVec.testBit_toNat, Nat.testBit_eq_decide_div_mod_eq, h]
  cases b <;> rfl

/-- A field of a word is a quotient's remainder. -/
theorem extractLsb'_eq_of_div_mod {v : Word} {start len : Nat} {b : BitVec len}
    (h : v.toNat / 2 ^ start % 2 ^ len = b.toNat) : v.extractLsb' start len = b :=
  BitVec.eq_of_toNat_eq ((extractLsb'_toNat_eq_div_mod v start len).trans h)

/-- R32 takes apart what R100 puts together. -/
theorem decodeAlarm_encodeAlarm (r : AlarmRecord) :
    decodeAlarm (encodeAlarm r).1 (encodeAlarm r).2 = r := by
  have hfst := encodeAlarm_fst_toNat r
  have hsnd := encodeAlarm_snd_toNat r
  have henabled := Bool.toNat_lt r.enabled
  have hrepeats := Bool.toNat_lt r.repeats
  have hminute : (encodeAlarm r).1.extractLsb' 0 6 = r.minute :=
    extractLsb'_eq_of_div_mod (by rw [hfst]; omega)
  have hhour : (encodeAlarm r).1.extractLsb' 6 5 = r.hour :=
    extractLsb'_eq_of_div_mod (by rw [hfst]; omega)
  have halarmId : (encodeAlarm r).1.extractLsb' 11 5 = r.alarmId :=
    extractLsb'_eq_of_div_mod (by rw [hfst]; omega)
  have hbit0 : (encodeAlarm r).2.getLsbD 0 = r.enabled :=
    getLsbD_eq_of_div_mod (by rw [hsnd]; omega)
  have hbit1 : (encodeAlarm r).2.getLsbD 1 = r.repeats :=
    getLsbD_eq_of_div_mod (by rw [hsnd]; omega)
  have hweekdays : (encodeAlarm r).2.extractLsb' 2 7 = r.weekdays :=
    extractLsb'_eq_of_div_mod (by rw [hsnd]; omega)
  have hringtone : (encodeAlarm r).2.extractLsb' 9 7 = r.ringtone :=
    extractLsb'_eq_of_div_mod (by rw [hsnd]; omega)
  rw [decodeAlarm, hminute, hhour, halarmId, hbit0, hbit1, hweekdays, hringtone]

/-- Settles O29: neither sum overflows, and the fields of the sums are the digits of a mixed
radix. -/
theorem alarmHalvesAreTheStatedSums : Obligations.AlarmHalvesAreTheStatedSums :=
  fun r => ⟨encodeAlarm_fst_toNat r, encodeAlarm_snd_toNat r, decodeAlarm_encodeAlarm r⟩

/-! ## The responses (R93, R95, log 19) -/

theorem exec_rdrsp (values : List Word) (s : State) :
    exec (.rdrsp values) s =
      .next (s.append ((sealFrame Config.params (rdrspBody values)).map .byte)) := rfl

theorem exec_wrrsp (address count : Word) (s : State) :
    exec (.wrrsp address count) s =
      .next (s.append ((sealFrame Config.params (wrrspBody address count)).map .byte)) := rfl

/-- Settles O22: a sealed frame is its body and the checksum, written out. -/
theorem responseFramesAreTransmitted : Obligations.ResponseFramesAreTransmitted :=
  ⟨exec_rdrsp, exec_wrrsp⟩

end Sys2Proof.Machine
end

section
/-! PROOF. The Byte Ingestion Buffer at its ports (R140 to R150): what a push step does, which steps
move the ring, the flag's life, and the order of the bytes in the block and in the FIFO alone. -/

namespace Sys2Proof.Machine

/-! ## What a push leaves alone, and that it keeps the ring -/

theorem push_fifoRd (b : Byte) (s : State) : (push b s).fifoRd = s.fifoRd := by
  rcases push_cases b s with ⟨_, he⟩ | ⟨_, he⟩ <;> rw [he] <;> rfl

theorem push_phase (b : Byte) (s : State) : (push b s).phase = s.phase := by
  rcases push_cases b s with ⟨_, he⟩ | ⟨_, he⟩ <;> rw [he] <;> rfl

theorem push_pending (b : Byte) (s : State) : (push b s).pending = s.pending := by
  rcases push_cases b s with ⟨_, he⟩ | ⟨_, he⟩ <;> rw [he] <;> rfl

theorem push_fifoBuf_wf (b : Byte) {s : State} (h : Memory.wf s.fifoBuf = true) :
    Memory.wf (push b s).fifoBuf = true := by
  rcases push_cases b s with ⟨_, he⟩ | ⟨_, he⟩ <;> rw [he]
  · exact h
  · exact memWrite_wf _ b h

theorem fifoCount_push_le (b : Byte) {s : State} (h : fifoCount s ≤ 512) :
    fifoCount (push b s) ≤ 512 := by
  rcases push_cases b s with ⟨_, he⟩ | ⟨hroom, _⟩
  · rw [he]
    exact h
  · exact (fifoCount_push_of_room b hroom).trans_le hroom

/-- R144: the flag tells whether the ring was full at the push. -/
theorem push_overflow (b : Byte) {s : State} (h : fifoCount s ≤ 512) :
    (push b s).overflow = decide (fifoCount s = 512) := by
  rcases push_cases b s with ⟨hfull, he⟩ | ⟨hroom, he⟩ <;> rw [he]
  · exact (decide_eq_true (Nat.le_antisymm h hfull)).symm
  · exact (decide_eq_false (Nat.ne_of_lt hroom)).symm

/-- A push from the interrupt is the step it asks for. -/
theorem step_push {b : Byte} {s : State} {rest : List Event}
    (h : s.takes (.call .interrupt (.push b)) rest) :
    step s = .next (push b (s.withPending rest)) :=
  step_of_takes h

/-- Settles O31: the accepting case of a push, and read after write at the write cursor's slot. -/
theorem pushStoresAtTheWriteCursor : Obligations.PushStoresAtTheWriteCursor := by
  intro b s rest htakes hwf hroom
  refine ⟨memWrite s.fifoBuf (slotOf s.fifoWr.toNat) b, memRead_memWrite_same _ b hwf,
    fun a ha => memRead_memWrite_ne _ b ha, ?_⟩
  rw [step_push htakes]
  rcases push_cases b (s.withPending rest) with ⟨hfull, _⟩ | ⟨_, he⟩
  · exact absurd hfull (Nat.not_le.2 hroom)
  · rw [he]
    rfl

/-- Settles O32: the dropping case of a push. -/
theorem pushIntoFullRingDropsTheByte : Obligations.PushIntoFullRingDropsTheByte := by
  intro b s rest htakes hfull
  rw [step_push htakes]
  rcases push_cases b (s.withPending rest) with ⟨_, he⟩ | ⟨hroom, _⟩
  · rw [he]
  · exact absurd hroom (Nat.not_lt.2 (Nat.le_of_eq hfull.symm))

/-! ## A drain of the FIFO alone (R145) -/

/-- A drain of the FIFO alone: the read cursor advanced, and the bytes passed over as the result. -/
theorem fifoStep_drain (n : Nat) (s : State) :
    fifoStep (.drain n) s =
      (s.withFifoRd (s.fifoRd + BitVec.ofNat 10 (drainCount n s))).withResult
        (.bytes (fifoOldest s (drainCount n s))) := rfl

/-- Settles O33: the count taken and the bytes returned, in the numbers of the cursors. -/
theorem drainTakesFromTheReadCursor : Obligations.DrainTakesFromTheReadCursor :=
  fun n s => fifoStep_drain n s

/-! ## Calls from the wrong context (R150, R320) -/

theorem contextOf_of_not_push {op : PortOp} (h : ∀ b, op ≠ .push b) : contextOf op = .poll := by
  cases op with
  | push b => exact absurd rfl (h b)
  | poll now => rfl
  | upload => rfl
  | regGet id => rfl
  | regSet id v => rfl
  | drain n => rfl

theorem step_of_wrong_context {ctx : Context} {op : PortOp} {s : State} {rest : List Event}
    (h : s.takes (.call ctx op) rest) (hctx : ctx ≠ contextOf op) :
    step s = .refused .wrongContext :=
  (step_of_takes h).trans (if_neg hctx)

/-- Settles O49: a push belongs to the interrupt, every other operation to the poll context. -/
theorem wrongContextIsRefused : Obligations.WrongContextIsRefused := by
  intro s rest
  refine ⟨fun b htakes => step_of_wrong_context htakes (by simp [contextOf]),
    fun op hop htakes => step_of_wrong_context htakes ?_⟩
  simp [contextOf_of_not_push hop]

/-! ## Which steps move the ring -/

/-- The array, the cursors and the flag of the FIFO are the same in both states. It speaks of these
fields only, so an update of other fields keeps it by definition. -/
def SameRing (s t : State) : Prop :=
  t.fifoBuf = s.fifoBuf ∧ t.fifoWr = s.fifoWr ∧ t.fifoRd = s.fifoRd ∧ t.overflow = s.overflow

theorem SameRing.refl (s : State) : SameRing s s := ⟨rfl, rfl, rfl, rfl⟩

theorem SameRing.fifoRd_eq {s t : State} (h : SameRing s t) : t.fifoRd = s.fifoRd := by
  obtain ⟨_, _, hrd, _⟩ := h
  exact hrd

theorem SameRing.overflow_eq {s t : State} (h : SameRing s t) : t.overflow = s.overflow := by
  obtain ⟨_, _, _, hoverflow⟩ := h
  exact hoverflow

theorem Extends.sameRing {s t : State} (hx : Extends s t) : SameRing s t := by
  obtain ⟨x, os, rfl⟩ := hx
  exact SameRing.refl s

theorem resyncProc_sameRing (p : Params) (s : State) : SameRing s (resyncProc p s) := by
  rcases resyncProc_cases p s with ⟨k, _, _, _, he⟩ | ⟨_, he⟩ <;> rw [he] <;>
    exact SameRing.refl s

theorem takeFrameError_sameRing (p : Params) (e : FrameError) (s : State) :
    SameRing s (takeFrameError p e s) :=
  resyncProc_sameRing p (s.withPhase .resync)

theorem runValidated_sameRing {s t : State} (ht : runValidated s = .next t) : SameRing s t := by
  rcases runValidated_cases s with ⟨i, len, u, _, _, hx, he⟩ | ⟨e, _, he⟩ <;>
    cases he.symm.trans ht
  · exact hx.sameRing
  · exact takeFrameError_sameRing _ e s

/-- A decode attempt leaves the ring alone, in whatever phase it begins. -/
theorem decodeAttempt_sameRing {s t : State} (ht : decodeAttempt s = .next t) : SameRing s t := by
  cases hphase : s.phase with
  | accumulating =>
    simp only [decodeAttempt, hphase] at ht
    cases ht
    exact SameRing.refl _
  | frameReady =>
    rcases decodeAttempt_frameReady hphase with ⟨i, len, u, _, _, hx, he⟩ | ⟨e, _, he⟩ <;>
      cases he.symm.trans ht
    · exact hx.sameRing
    · exact takeFrameError_sameRing _ e s
  | validated =>
    simp only [decodeAttempt, hphase] at ht
    exact runValidated_sameRing ht
  | resync =>
    simp only [decodeAttempt, hphase] at ht
    cases ht
    exact resyncProc_sameRing _ s

/-- Of a poll only its drain moves the ring. -/
theorem poll_sameRing {now : Tick} {s t : State} (ht : poll now s = .next t) :
    SameRing (pollDrain now s) t := by
  cases hready : ready (pollDrain now s) with
  | false =>
    cases (poll_of_not_ready hready).symm.trans ht
    exact SameRing.refl _
  | true =>
    exact decodeAttempt_sameRing (s := (pollDrain now s).withPhase .frameReady)
      ((poll_of_ready hready).symm.trans ht)

/-- What a port operation can do to the ring: a push, the drain of a poll, or nothing. -/
theorem runOp_ring_cases {op : PortOp} {s t : State} (ht : runOp op s = .next t) :
    (∃ b, op = .push b ∧ t = push b s) ∨
    (∃ now, op = .poll now ∧ SameRing (pollDrain now s) t) ∨ SameRing s t := by
  cases op with
  | push b => cases ht; exact .inl ⟨b, rfl, rfl⟩
  | poll now => exact .inr (.inl ⟨now, rfl, poll_sameRing ht⟩)
  | upload => exact .inr (.inr (extends_of_exec (i := .upload) ht).sameRing)
  | regGet id => cases ht; exact .inr (.inr (SameRing.refl s))
  | regSet id v => cases ht; exact .inr (.inr (regSet_extends _ id v s).sameRing)
  | drain n => cases ht

/-- How a step between polls comes to a next state: idle, a power-up, or one port operation. -/
theorem step_next_cases {s t : State} (hphase : s.phase = .accumulating) (ht : step s = .next t) :
    t = s ∨ s.pending.head? = some .powerUp ∨
      ∃ op rest, s.pending = .call (contextOf op) op :: rest ∧
        runOp op (s.withPending rest) = .next t := by
  rcases step_cases hphase with ⟨_, he⟩ | ⟨rest, hpend, _⟩ | ⟨_, _, _, _, _, he⟩ |
    ⟨op, rest, hpend, _, he⟩
  · cases he.symm.trans ht
    exact .inl rfl
  · exact .inr (.inl (congrArg List.head? hpend))
  · cases he.symm.trans ht
  · exact .inr (.inr ⟨op, rest, hpend, he.symm.trans ht⟩)

/-- R144: a step whose event is neither a push nor a power-up leaves the flag as it is. -/
theorem step_overflow {s t : State} (ht : step s = .next t)
    (hpush : ∀ (ctx : Context) (b : Byte), s.pending.head? ≠ some (.call ctx (.push b)))
    (hpower : s.pending.head? ≠ some .powerUp) : t.overflow = s.overflow := by
  by_cases hphase : s.phase = .accumulating
  · rcases step_next_cases hphase ht with rfl | hp | ⟨op, rest, hpend, hop⟩
    · rfl
    · exact absurd hp hpower
    · rcases runOp_ring_cases hop with ⟨b, rfl, _⟩ | ⟨now, _, hsame⟩ | hsame
      · exact absurd (congrArg List.head? hpend) (hpush _ b)
      · exact hsame.overflow_eq
      · exact hsame.overflow_eq
  · exact (decodeAttempt_sameRing ((step_of_phase_ne hphase).symm.trans ht)).overflow_eq

/-- Settles O36: the flag at reset, after a push, after any other step, and after a drain. -/
theorem overflowFlagTellsOfTheLatestPush : Obligations.OverflowFlagTellsOfTheLatestPush :=
  ⟨rfl, fun b _ _ htakes hcount => ⟨_, step_push htakes, push_overflow b hcount⟩,
    fun _ _ => step_overflow, fun _ _ => rfl⟩

/-- Settles O57: the read cursor moves in no operation but a poll, and there in its drain. -/
theorem directDrainIsRefusedByTheBlock : Obligations.DirectDrainIsRefusedByTheBlock := by
  refine ⟨fun n s rest htakes => step_of_takes htakes, fun s t hphase ht hmoved => ?_⟩
  rcases step_next_cases hphase ht with rfl | hp | ⟨op, rest, hpend, hop⟩
  · exact absurd rfl hmoved
  · exact .inl hp
  · rcases runOp_ring_cases hop with ⟨b, _, rfl⟩ | ⟨now, rfl, hsame⟩ | hsame
    · exact absurd (push_fifoRd b _) hmoved
    · exact .inr ⟨now, rest, hpend, hsame.fifoRd_eq⟩
    · exact absurd hsame.fifoRd_eq hmoved

/-! ## The order of the bytes in the FIFO alone (R148) -/

/-- A push lengthens the queue by its byte where it is accepted. -/
theorem fifoQueue_push (b : Byte) {s : State} (hwf : Memory.wf s.fifoBuf = true)
    (hcount : fifoCount s ≤ 512) :
    fifoQueue (push b s) = fifoQueue s ++ if fifoCount s < Config.fifoCap then [b] else [] := by
  by_cases hroom : fifoCount s < Config.fifoCap
  · rw [if_pos hroom]
    exact (fifoQueue_push_of_room b hwf hroom).1
  · rw [if_neg hroom, List.append_nil]
    exact (fifoQueue_push_of_full b (Nat.le_antisymm hcount (Nat.not_lt.1 hroom))).1

/-- What a drain returns and what it leaves are together what was held. -/
theorem drainBytes_append_fifoQueue_drain (n : Nat) (s : State) :
    drainBytes n s ++ fifoQueue (drain n s) = fifoQueue s := by
  rw [drainBytes_eq_take, fifoQueue_drain, List.take_append_drop]

/-- Settles O58, by induction on the schedule: each operation keeps the ring and carries its byte or
its bytes from one side of the equation to the other. -/
theorem drainsReturnTheAcceptedBytesInOrder : Obligations.DrainsReturnTheAcceptedBytesInOrder := by
  intro ops
  induction ops with
  | nil =>
    intro s hwf hcount
    exact ⟨List.append_nil _, hwf, hcount⟩
  | cons op ops ih =>
    intro s hwf hcount
    cases op with
    | push b =>
      obtain ⟨horder, hring⟩ := ih (push b s) (push_fifoBuf_wf b hwf) (fifoCount_push_le b hcount)
      refine ⟨?_, hring⟩
      rw [fifoQueue_push b hwf hcount, List.append_assoc] at horder
      exact horder
    | drain n =>
      have hle : fifoCount (fifoStep (.drain n) s) ≤ 512 :=
        (fifoCount_drain n s).trans_le ((Nat.sub_le _ _).trans hcount)
      obtain ⟨horder, hring⟩ := ih (fifoStep (.drain n) s) hwf hle
      refine ⟨?_, hring⟩
      calc fifoQueue s ++ acceptedBytes ops (fifoStep (.drain n) s)
          = drainBytes n s ++ (fifoQueue (fifoStep (.drain n) s) ++
              acceptedBytes ops (fifoStep (.drain n) s)) := by
            rw [← drainBytes_append_fifoQueue_drain n s, List.append_assoc]
            rfl
        _ = drainBytes n s ++ (drainedBytes ops (fifoStep (.drain n) s) ++
              fifoQueue (runFifo ops (fifoStep (.drain n) s))) := by rw [horder]
        _ = drainedBytes (.drain n :: ops) s ++ fifoQueue (runFifo (.drain n :: ops) s) :=
            (List.append_assoc _ _ _).symm

/-! ## A run of pushes of the block (R148) -/

/-- A push step with room: its byte is the newest held, the flag is clear, and the block waits for the
next event. -/
theorem step_push_of_room {b : Byte} {s : State} {rest : List Event}
    (h : s.takes (.call .interrupt (.push b)) rest) (hwf : Memory.wf s.fifoBuf = true)
    (hroom : fifoCount s < 512) :
    ∃ t, step s = .next t ∧ (t.phase = .accumulating ∧ Memory.wf t.fifoBuf = true ∧
      fifoCount t = fifoCount s + 1 ∧ t.pending = rest) ∧
      fifoQueue t = fifoQueue s ++ [b] ∧ t.overflow = false :=
  ⟨push b (s.withPending rest), step_push h,
    ⟨(push_phase b _).trans h.1, push_fifoBuf_wf b hwf,
      fifoCount_push_of_room (s := s.withPending rest) b hroom, push_pending b _⟩,
    fifoQueue_push_of_room (s := s.withPending rest) b hwf hroom⟩

/-- Bytes that fit are held behind those held before, in their order; the flag is clear once one came. -/
theorem run_pushes (bs : List Byte) (rest : List Event) {s : State}
    (hphase : s.phase = .accumulating) (hwf : Memory.wf s.fifoBuf = true)
    (hfits : fifoCount s + bs.length ≤ 512)
    (hpend : s.pending = bs.map (fun b => .call .interrupt (.push b)) ++ rest) :
    ∃ t : State, Host.Core.run Sys2Proof.core bs.length s = .next t ∧
      fifoQueue t = fifoQueue s ++ bs ∧ t.overflow = (bs.isEmpty && s.overflow) ∧
      t.pending = rest := by
  induction bs generalizing s with
  | nil => exact ⟨s, rfl, (List.append_nil _).symm, rfl, hpend⟩
  | cons b bs ih =>
    rw [List.length_cons] at hfits
    obtain ⟨u, hstep, ⟨huphase, huwf, hucount, hupend⟩, huqueue, huclear⟩ :=
      step_push_of_room ⟨hphase, hpend⟩ hwf (by omega)
    obtain ⟨t, hrun, htq, hto, htp⟩ := ih huphase huwf (by omega) hupend
    refine ⟨t, (run_succ_of_next _ hstep).trans hrun, ?_, ?_, htp⟩
    · rw [htq, huqueue, List.append_assoc, List.singleton_append]
    · rw [hto, huclear, Bool.and_false, List.isEmpty_cons, Bool.false_and]

/-- A drain of the FIFO alone of as many bytes as are held returns them all and empties the ring. -/
theorem fifoStep_drain_all {s : State} {bs : List Byte} (h : fifoQueue s = bs) :
    (fifoStep (.drain bs.length) s).result = .bytes bs ∧
      fifoCount (fifoStep (.drain bs.length) s) = 0 := by
  have hqueue : fifoQueue (drain bs.length s) = [] := by simp [fifoQueue_drain, h]
  constructor
  · show PortResult.bytes (drainBytes bs.length s) = .bytes bs
    rw [drainBytes_eq_take, h, List.take_length]
  · show fifoCount (drain bs.length s) = 0
    rw [← fifoQueue_length, hqueue, List.length_nil]

/-- Settles O35: the first `k` pushes by themselves, then all of them and the drain. -/
theorem pushesThenDrainReturnThemInOrder : Obligations.PushesThenDrainReturnThemInOrder := by
  intro bs s rest hphase hwf hempty hlen hpend
  have hqueue : fifoQueue s = [] := List.length_eq_zero_iff.1 ((fifoQueue_length s).trans hempty)
  constructor
  · intro k hk hkbs
    have htake : (bs.take k).length = k := List.length_take_of_le hkbs
    obtain ⟨t, hrun, htq, hto, _⟩ := run_pushes (bs.take k)
      ((bs.drop k).map (fun b => .call .interrupt (.push b)) ++ rest) hphase hwf (by omega)
      (by rw [hpend, ← List.append_assoc, ← List.map_append, List.take_append_drop])
    rw [htake] at hrun
    have hne : (bs.take k).isEmpty = false := List.isEmpty_eq_false_iff.2
      (List.ne_nil_of_length_pos (by omega))
    exact ⟨t, hrun, by rw [htq, hqueue, List.nil_append], by rw [hto, hne, Bool.false_and]⟩
  · obtain ⟨t, hrun, htq, _, htp⟩ := run_pushes bs rest hphase hwf (by omega) hpend
    rw [hqueue, List.nil_append] at htq
    exact ⟨t, hrun, htp, fifoStep_drain_all htq⟩

end Sys2Proof.Machine
end

section
/-! PROOF. What `Parse` answers on each kind of buffer (R165 to R170): which check fails first, and
that the checksum decides on a whole frame. -/

namespace Sys2Proof

/-! ## A check that fails is the answer of `Parse` (R165 to R169, R313) -/

theorem parse_of_frameLength_error (p : Params) {buf : List Byte} {e : FrameError}
    (h : frameLength buf = .error e) : parse p buf = .error e := by
  simp only [parse, decode, h]

/-- R169: a frame that is not whole is truncated, whatever its checksum field would be. -/
theorem parse_of_length_lt (p : Params) {buf : List Byte} {len : Nat}
    (h : frameLength buf = .ok len) (hlt : buf.length < len) : parse p buf = .error .truncated := by
  simp only [parse, decode, h, if_pos hlt]

/-- R170: on a whole frame the checksum decides. -/
theorem parse_of_decode_ok (p : Params) {buf : List Byte} {i : Instr} {len : Nat}
    (h : decode buf = .ok (i, len)) :
    parse p buf = if checksumOk p (buf.take len) then .ok (i, len) else .error .badChecksum := by
  simp only [parse, h]

/-! ## The checks on the first bytes (R165 to R168) -/

/-- R165: the marker is checked first, whatever follows it. -/
theorem frameLength_of_ne_marker {b : Byte} (rest : List Byte) (h : b ≠ 0x01) :
    frameLength (b :: rest) = .error .badMarker :=
  if_neg h

/-- R168: a command byte that is neither of the two. -/
theorem frameLength_of_bad_command {c : Byte} (rest : List Byte) (hread : c ≠ 0x03)
    (hwrite : c ≠ 0x10) : frameLength (0x01 :: c :: rest) = .error .badCommand :=
  (if_neg hread).trans (if_neg hwrite)

/-- R166, R168: a write's length byte is not there. -/
theorem frameLength_of_short_write {rest : List Byte} (h : rest.length + 2 < 7) :
    frameLength (0x01 :: 0x10 :: rest) = .error .truncated :=
  if_pos (e := Except.ok _) h

/-- R96: a write's length is learnt from its byte 6. -/
theorem frameLength_of_write (h0 h1 h2 h3 ll : Byte) (rest : List Byte) :
    frameLength (0x01 :: 0x10 :: h0 :: h1 :: h2 :: h3 :: ll :: rest) = .ok (9 + ll.toNat) :=
  if_neg (t := Except.error .truncated) (Nat.not_lt.2 (Nat.le_add_left 7 rest.length))

/-! ## The checksum of a whole frame (R90, R170) -/

/-- `BE16` looks at the first two bytes only, so bytes behind them do not matter. -/
theorem be16Val_take {bs : List Byte} {n : Nat} (h : 2 ≤ n) : be16Val (bs.take n) = be16Val bs := by
  have hbyte (k : Nat) (hk : k < n) : (bs.take n).getD k 0 = bs.getD k 0 := by
    rw [List.getD_eq_getElem?_getD, List.getElem?_take_of_lt hk, ← List.getD_eq_getElem?_getD]
  rw [be16Val, hbyte 0 (by omega), hbyte 1 (by omega), be16Val]

/-- The checksum field of the frame at the start of a buffer, in the buffer's own offsets. -/
theorem checksumOk_take_iff (p : Params) {buf : List Byte} {len : Nat} (h2 : 2 ≤ len)
    (hle : len ≤ buf.length) :
    checksumOk p (buf.take len) = true ↔
      p.ck (buf.take (len - 2)) = be16Val (buf.drop (len - 2)) := by
  have hbody : (buf.take len).take (len - 2) = buf.take (len - 2) := by
    rw [List.take_take, Nat.min_eq_left (Nat.sub_le len 2)]
  rw [checksumOk, beq_iff_eq, List.length_take_of_le hle, hbody, List.drop_take,
    be16Val_take (by omega)]

/-- Settles O30: the first check that fails is the answer, and on a whole frame the checksum. -/
theorem parseErrorsByKind : Obligations.ParseErrorsByKind := by
  intro p
  refine ⟨fun b rest hb => ?badMarker, ?marker, fun c rest hread hwrite => ?badCommand,
    fun rest hlt => ?shortRead, fun rest hlt => ?shortWrite,
    fun h0 h1 h2 h3 ll rest hlt => ?shortData, fun buf i len hdecode => ?whole⟩
  case badMarker => exact parse_of_frameLength_error p (frameLength_of_ne_marker rest hb)
  case marker => exact parse_of_frameLength_error p rfl
  case badCommand =>
    exact parse_of_frameLength_error p (frameLength_of_bad_command rest hread hwrite)
  case shortRead => exact parse_of_length_lt p (len := 8) rfl hlt
  case shortWrite => exact parse_of_frameLength_error p (frameLength_of_short_write hlt)
  case shortData => exact parse_of_length_lt p (frameLength_of_write h0 h1 h2 h3 ll rest) hlt
  case whole =>
    obtain ⟨_, hle, _, h8⟩ := decode_ok hdecode
    rw [parse_of_decode_ok p hdecode]
    exact if_congr (checksumOk_take_iff p (by omega) hle) rfl rfl

end Sys2Proof
end

section
/-! PROOF. The Frame Decoder (R160 to R181): the drain and the ready test of a poll, what a decode
attempt leaves, and the recovery of a frame behind garbage. -/

namespace Sys2Proof.Machine

/-! ## The drain of a poll (R161, R162) -/

theorem fifoQueue_pollDrain (now : Tick) (s : State) :
    fifoQueue (pollDrain now s) = (fifoQueue s).drop (asmRoom s) :=
  fifoQueue_drain (asmRoom s) s

/-- R161: the timestamp is refreshed exactly when the drain lengthened the buffer. -/
theorem pollDrain_lastActivity_eq (now : Tick) (s : State) :
    (pollDrain now s).lastActivity =
      if (pollDrain now s).asmLen = s.asmLen then s.lastActivity else now := by
  have hempty : (drainBytes (asmRoom s) s).isEmpty = true ↔
      (pollDrain now s).asmLen = s.asmLen := by
    rw [List.isEmpty_iff_length_eq_zero, drainBytes_length, pollDrain_asmLen]
    omega
  rw [pollDrain_lastActivity]
  exact if_congr hempty rfl rfl

/-- Settles O37: a poll drains the room left, and a drain takes the oldest bytes. -/
theorem pollDrainAppendsWhatFits : Obligations.PollDrainAppendsWhatFits := by
  intro now s hwf
  refine ⟨?_, fifoQueue_pollDrain now s, pollDrain_asmLen now s, State.asmLen_le _,
    pollDrain_lastActivity_eq now s, rfl, rfl, rfl, rfl⟩
  rw [State.drained, asmBytes_pollDrain now hwf, drainBytes_eq_take]
  rfl

/-! ## The ready test (R163) -/

/-- A poll of the schedule is the step it asks for. -/
theorem step_poll {now : Tick} {s : State} {rest : List Event}
    (h : s.takes (.call .poll (.poll now)) rest) : step s = poll now (s.withPending rest) :=
  step_of_takes h

/-- Settles O38: the two outcomes of the ready test, in numbers. -/
theorem pollDecodesExactlyWhenReady : Obligations.PollDecodesExactlyWhenReady := by
  intro now s rest htakes t
  rw [step_poll htakes]
  refine ⟨fun hwaits => poll_of_not_ready ?_, fun hpending hdue => poll_of_ready ?_⟩
  · rw [Bool.eq_false_iff, ne_eq, ready_iff]
    rintro ⟨hpending, hdue⟩
    rcases hwaits with hempty | ⟨hroom, hearly⟩
    · exact hpending hempty
    · exact hdue.elim (Nat.not_le.2 hearly) hroom
  · exact (ready_iff t).2 ⟨hpending, hdue.symm⟩

/-! ## What a decode attempt leaves (R172, R173, R175 to R177) -/

/-- A ready poll that finds a good frame runs it and removes it; the phase the frame runs in changes
neither the registers nor the outputs it leaves (R172, R296). -/
theorem poll_of_parse_ok {now : Tick} {s : State} {i : Instr} {len : Nat}
    (hready : ready (pollDrain now s) = true)
    (hparse : parse Config.params (asmBytes (pollDrain now s)) = .ok (i, len)) :
    ∃ u v, exec i (pollDrain now s) = .next u ∧ v.x = u.x ∧ v.out = u.out ∧
      Extends ((pollDrain now s).withPhase .validated) v ∧ poll now s = .next (retire len v) := by
  rcases poll_cases now s with ⟨hn, _⟩ | ⟨_, j, l, v, hok, hv, he⟩ | ⟨_, e, herror, _⟩
  · cases hready.symm.trans hn
  · cases hparse.symm.trans hok
    obtain ⟨u, hu, hx, hout⟩ := exec_congr (s := (pollDrain now s).withPhase .validated)
      (s' := pollDrain now s) rfl rfl hv
    exact ⟨u, v, hu, hx.symm, hout.symm, extends_of_exec hv, he⟩
  · cases hparse.symm.trans herror

/-- A ready poll whose parse fails takes the frame error (R175). -/
theorem poll_of_parse_error {now : Tick} {s : State} {e : FrameError}
    (hready : ready (pollDrain now s) = true)
    (hparse : parse Config.params (asmBytes (pollDrain now s)) = .error e) :
    poll now s =
      .next (takeFrameError Config.params e ((pollDrain now s).withPhase .frameReady)) := by
  rcases poll_cases now s with ⟨hn, _⟩ | ⟨_, j, l, v, hok, _, _⟩ | ⟨_, e', herror, he⟩
  · cases hready.symm.trans hn
  · cases hparse.symm.trans hok
  · cases hparse.symm.trans herror
    exact he

/-- R172, R173: retiring the frame an instruction ran from removes exactly its bytes, and bytes that
remain wait from now on. -/
theorem retire_of_extends {len : Nat} {t v : State} (hx : Extends (t.withPhase .validated) v)
    (hwf : Memory.wf t.asm = true) (hle : len ≤ t.asmLen) :
    asmBytes (retire len v) = (asmBytes t).drop len ∧ (retire len v).phase = .accumulating ∧
      (retire len v).lastActivity = (if t.asmLen = len then t.lastActivity else t.now) ∧
      fifoQueue (retire len v) = fifoQueue t ∧ (retire len v).overflow = t.overflow ∧
      (retire len v).pending = t.pending := by
  have hnone : t.asmLen - len = 0 ↔ t.asmLen = len := by omega
  obtain ⟨x, os, rfl⟩ := hx
  exact ⟨asmBytes_asmDrop len hwf, rfl, if_congr hnone rfl rfl, rfl, rfl, rfl⟩

/-- What parses lies in the buffer. -/
theorem le_asmLen_of_parse_ok {p : Params} {s : State} {i : Instr} {len : Nat}
    (h : parse p (asmBytes s) = .ok (i, len)) : 8 ≤ len ∧ len ≤ s.asmLen := by
  obtain ⟨_, hle, _, h8⟩ := decode_ok (parse_ok.1 h).1
  exact ⟨h8, asmBytes_length s ▸ hle⟩

/-- The drain of a poll keeps the canonical form of the assembly buffer. -/
theorem State.Inv.drained_asm_wf {s : State} (h : s.Inv) (now : Tick) (rest : List Event) :
    Memory.wf ((s.withPending rest).drained now).asm = true :=
  (pollDrain_asmOk now ⟨h.asm_wf, h.asm_below⟩ :
    (pollDrain now (s.withPending rest)).AsmOk).1

/-- Settles O40: the frame runs in the drained state, and its removal touches the buffer, the
timestamp and the phase only. -/
theorem pollRunsAndRemovesTheFrame : Obligations.PollRunsAndRemovesTheFrame := by
  intro now s rest i len hinv htakes t hready hparse
  obtain ⟨_, hle⟩ := le_asmLen_of_parse_ok hparse
  obtain ⟨u, v, hu, hx, hout, hv, hpoll⟩ := poll_of_parse_ok hready hparse
  exact ⟨u, retire len v, hu, (step_poll htakes).trans hpoll, hx, hout,
    retire_of_extends hv (hinv.drained_asm_wf now rest) hle⟩

/-! ### The frame error (R175 to R177) -/

/-- The scan finds the least marker from offset 1 on (R175). -/
theorem nextMarker_of_least {bs : List Byte} {k : Nat} (h1 : 1 ≤ k) (hk : bs[k]? = some 0x01)
    (hleast : ∀ j, 1 ≤ j → j < k → bs[j]? ≠ some 0x01) : nextMarker bs = some k := by
  obtain ⟨hlt, hmarker⟩ := List.getElem?_eq_some_iff.1 hk
  refine nextMarker_eq_some.2 ⟨hlt, h1, hmarker, fun j hj hj1 hbyte => ?_⟩
  exact hleast j hj1 hj (List.getElem?_eq_some_iff.2 ⟨hj.trans hlt, hbyte⟩)

/-- With no marker from offset 1 on, the scan finds nothing (R177). -/
theorem nextMarker_of_no_marker {bs : List Byte} (h : ∀ k, 1 ≤ k → bs[k]? ≠ some 0x01) :
    nextMarker bs = none := by
  cases hk : nextMarker bs with
  | none => rfl
  | some k =>
    obtain ⟨hlt, h1, hmarker, _⟩ := nextMarker_eq_some.1 hk
    exact absurd (List.getElem?_eq_some_iff.2 ⟨hlt, hmarker⟩) (h k h1)

/-- R175, R176: with a marker behind offset 0 the buffer is realigned on it, the timeout restarts and
nothing is sent. -/
theorem takeFrameError_of_marker (p : Params) (e : FrameError) {s : State} {k : Nat}
    (hwf : Memory.wf s.asm = true) (h : nextMarker (asmBytes s) = some k) :
    asmBytes (takeFrameError p e s) = (asmBytes s).drop k ∧
      (takeFrameError p e s).lastActivity = s.now ∧ (takeFrameError p e s).out = s.out := by
  rcases takeFrameError_cases p e s with ⟨k', hk', _, _, he⟩ | ⟨hn, _⟩
  · cases h.symm.trans hk'
    rw [he]
    exact ⟨asmBytes_asmDrop k hwf, rfl, rfl⟩
  · cases h.symm.trans hn

/-- R177: without one every byte is discarded, echoed first where the echo is on. -/
theorem takeFrameError_of_no_marker (p : Params) (e : FrameError) {s : State}
    (h : nextMarker (asmBytes s) = none) :
    (takeFrameError p e s).asmLen = 0 ∧
      (takeFrameError p e s).out =
        s.out ++ (if p.echoDiscard then (asmBytes s).map .byte else []) := by
  rcases takeFrameError_cases p e s with ⟨k, hk, _, _, _⟩ | ⟨_, he⟩
  · cases h.symm.trans hk
  · rw [he]
    exact ⟨rfl, rfl⟩

/-- R316: a frame error emits no action, whatever it echoes. -/
theorem takeFrameError_act (p : Params) (e : FrameError) (s : State) :
    (takeFrameError p e s).act = s.act := by
  rcases takeFrameError_cases p e s with ⟨k, _, _, _, he⟩ | ⟨_, he⟩ <;> rw [he]
  · rfl
  · have hecho : (if p.echoDiscard then (asmBytes s).map .byte else []).filterMap
        Output.actPart = [] := by
      split
      · exact actPart_bytes _
      · rfl
    exact (List.filterMap_append ..).trans ((congrArg (s.act ++ ·) hecho).trans (List.append_nil _))

/-- R316: a frame error leaves the steps to come alone. -/
theorem takeFrameError_pending (p : Params) (e : FrameError) (s : State) :
    (takeFrameError p e s).pending = s.pending := by
  rcases takeFrameError_cases p e s with ⟨k, _, _, _, he⟩ | ⟨_, he⟩ <;> rw [he] <;> rfl

theorem SameRing.fifoQueue_eq {s t : State} (h : SameRing s t) : fifoQueue t = fifoQueue s := by
  obtain ⟨hbuf, hwr, hrd, _⟩ := h
  simp only [fifoQueue, fifoOldest, fifoCount, hbuf, hwr, hrd]

/-- Settles O42: what taking a frame error leaves alone, and its two outcomes. -/
theorem failedParseRealignsOrEchoes : Obligations.FailedParseRealignsOrEchoes := by
  intro now s rest e hinv htakes t hready hparse
  have hwf : Memory.wf t.asm = true := hinv.drained_asm_wf now rest
  have hstep := (step_poll htakes).trans (poll_of_parse_error hready hparse)
  have hx : t.x = s.x := rfl
  have hout : t.out = s.out := rfl
  have hoverflow : t.overflow = s.overflow := rfl
  have hpending : t.pending = rest := rfl
  have hnow : t.now = now := rfl
  refine ⟨takeFrameError Config.params e (t.withPhase .frameReady), hstep, ?_⟩
  clear_value t
  subst hnow hpending
  have hring := takeFrameError_sameRing Config.params e (t.withPhase .frameReady)
  refine ⟨(takeFrameError_x _ e _).trans hx,
    (takeFrameError_act _ e _).trans (congrArg (List.filterMap Output.actPart) hout),
    hring.fifoQueue_eq, hring.overflow_eq.trans hoverflow, rfl, takeFrameError_pending _ e _,
    fun k h1 _ hk hleast => ?realigned, fun hnone => ?discarded⟩
  case realigned =>
    obtain ⟨hbytes, hlast, hsent⟩ := takeFrameError_of_marker Config.params e
      (s := t.withPhase .frameReady) hwf (nextMarker_of_least h1 hk hleast)
    exact ⟨hbytes, hlast, hsent.trans hout⟩
  case discarded =>
    obtain ⟨hempty, hsent⟩ := takeFrameError_of_no_marker Config.params e
      (s := t.withPhase .frameReady) (nextMarker_of_no_marker hnone)
    exact ⟨hempty, hout ▸ hsent⟩

/-! ## Every attempt removes a byte (R178) -/

/-- Taking a frame error shortens a buffer that is not empty (R175, R177). -/
theorem takeFrameError_asmLen_lt (p : Params) (e : FrameError) {s : State} (h : s.asmLen ≠ 0) :
    (takeFrameError p e s).asmLen < s.asmLen := by
  rcases takeFrameError_cases p e s with ⟨k, _, h1, hlt, he⟩ | ⟨_, he⟩ <;> rw [he]
  · exact Nat.sub_lt (Nat.pos_of_ne_zero h) h1
  · exact Nat.pos_of_ne_zero h

/-- Settles O43: the frame removed has at least 8 bytes, and a resync drops at least one. -/
theorem everyAttemptRemovesAByte : Obligations.EveryAttemptRemovesAByte := by
  intro now s rest _ htakes hready
  rw [step_poll htakes]
  obtain ⟨hpending, _⟩ := (ready_iff _).1 hready
  cases hparse : parse Config.params (asmBytes ((s.withPending rest).drained now)) with
  | ok frame =>
    obtain ⟨i, len⟩ := frame
    obtain ⟨h8, _⟩ := le_asmLen_of_parse_ok hparse
    obtain ⟨_, v, _, _, _, hv, hpoll⟩ := poll_of_parse_ok hready hparse
    refine ⟨_, hpoll, ?_⟩
    obtain ⟨x, os, rfl⟩ := hv
    exact Nat.sub_lt (Nat.pos_of_ne_zero hpending) (by omega)
  | error e =>
    exact ⟨_, poll_of_parse_error hready hparse,
      takeFrameError_asmLen_lt _ e (s := (pollDrain now (s.withPending rest)).withPhase .frameReady)
        hpending⟩

/-! ## Recovery behind garbage (R179) -/

/-- Between polls, with nothing left in the FIFO, the bytes `bs` have waited in the assembly buffer
since `since`, and `es` are the steps to come. -/
structure State.Waiting (s : State) (bs : List Byte) (since : Tick) (es : List Event) : Prop where
  inv : s.Inv
  fifo_empty : fifoCount s = 0
  bytes : asmBytes s = bs
  since_eq : s.lastActivity = since
  pending_eq : s.pending = es

section Waiting

variable {s : State} {bs : List Byte} {since now : Tick} {es : List Event}

theorem State.Waiting.takes (h : s.Waiting bs since (.call .poll (.poll now) :: es)) :
    s.takes (.call .poll (.poll now)) es :=
  ⟨h.inv.phase_idle, h.pending_eq⟩

/-- With nothing in the FIFO the drain of a poll changes neither the bytes nor the timestamp. -/
theorem State.Waiting.drained (h : s.Waiting bs since (.call .poll (.poll now) :: es)) :
    asmBytes ((s.withPending es).drained now) = bs ∧
      ((s.withPending es).drained now).lastActivity = since ∧
      fifoQueue ((s.withPending es).drained now) = [] := by
  obtain ⟨hbytes, hqueue, hlen, _, hlast, _⟩ :=
    pollDrainAppendsWhatFits now (s.withPending es) h.inv.asm_wf
  have hempty : fifoQueue (s.withPending es) = [] :=
    List.eq_nil_of_length_eq_zero ((fifoQueue_length _).trans h.fifo_empty)
  have hcount : fifoCount (s.withPending es) = 0 := h.fifo_empty
  rw [hempty, List.take_nil, List.append_nil] at hbytes
  rw [hcount, Nat.min_zero, Nat.add_zero] at hlen
  rw [if_pos hlen] at hlast
  exact ⟨hbytes.trans h.bytes, hlast.trans h.since_eq, by rw [hqueue, hempty, List.drop_nil]⟩

/-- A timeout later the poll is ready (R163). -/
theorem State.Waiting.ready (h : s.Waiting bs since (.call .poll (.poll now) :: es))
    (hbs : bs ≠ []) (hlate : 100 ≤ (now - since).toNat) :
    ready ((s.withPending es).drained now) = true := by
  obtain ⟨hbytes, hlast, _⟩ := h.drained
  refine (ready_iff _).2 ⟨fun h0 => hbs (hbytes.symm.trans (asmBytes_empty h0)), .inl ?_⟩
  rw [hlast]
  exact hlate

/-- A step keeps the block waiting, for what it leaves in the buffer. -/
theorem State.Waiting.of_step (h : s.Waiting bs since (.call .poll (.poll now) :: es)) {v : State}
    (hstep : step s = .next v)
    (hqueue : fifoQueue v = fifoQueue ((s.withPending es).drained now)) (hpending : v.pending = es) :
    v.Waiting (asmBytes v) v.lastActivity es := by
  obtain ⟨_, _, hempty⟩ := h.drained
  refine ⟨stepKeepsTheInvariant s v h.inv hstep, ?_, rfl, rfl, hpending⟩
  rw [← fifoQueue_length, hqueue, hempty, List.length_nil]

/-- A timeout later a poll runs the frame that waits first, and what is behind it waits from then on
(R172). -/
theorem State.Waiting.step_frame {i : Instr} {more : List Byte} {u : State}
    (h : s.Waiting (encode Config.params i ++ more) since (.call .poll (.poll now) :: es))
    (hwf : i.wf = true) (hrequest : i.isRequest = true) (hlate : 100 ≤ (now - since).toNat)
    (hu : exec i s = .next u) :
    ∃ v, step s = .next v ∧ v.x = u.x ∧ v.out = u.out ∧
      v.Waiting more (if more = [] then since else now) es := by
  obtain ⟨hbytes, hlast, _⟩ := h.drained
  have hparse := encodedRequestsParseBack Config.params i more hwf hrequest
  have hne : encode Config.params i ++ more ≠ [] := fun hnil => by
    rw [hnil] at hparse
    cases hparse
  rw [← hbytes] at hparse
  obtain ⟨u', v, hu', hstep, hx, hout, hmore, _, hlast', hqueue, _, hpending⟩ :=
    pollRunsAndRemovesTheFrame now s es i _ h.inv h.takes (h.ready hne hlate) hparse
  obtain ⟨w, hw, hwx, hwout⟩ :=
    exec_congr (s := s) (s' := (s.withPending es).drained now) rfl rfl hu
  cases hw.symm.trans hu'
  refine ⟨v, hstep, hx.trans hwx, hout.trans hwout, ?_⟩
  have hall : ((s.withPending es).drained now).asmLen = (encode Config.params i).length ↔
      more = [] := by
    rw [← asmBytes_length, hbytes, List.length_append, Nat.add_eq_left, List.length_eq_zero_iff]
  have hwaiting := h.of_step hstep hqueue hpending
  rw [hbytes, List.drop_left] at hmore
  rwa [hmore, hlast', hlast, if_congr hall rfl rfl] at hwaiting

/-- One byte in front of a marker is no frame, even where it is a marker itself: the byte behind it is
then no command (R165, R168). -/
theorem parse_garbage (p : Params) (g : Byte) (more : List Byte) :
    ∃ e, parse p (g :: 0x01 :: more) = .error e := by
  by_cases hg : g = 0x01
  · subst hg
    exact ⟨_, parse_of_frameLength_error p
      (frameLength_of_bad_command more (by decide) (by decide))⟩
  · exact ⟨_, parse_of_frameLength_error p (frameLength_of_ne_marker _ hg)⟩

/-- A timeout later a poll drops one byte of garbage in front of a marker, and nothing else happens
(R175, R176). -/
theorem State.Waiting.step_garbage {g : Byte} {more : List Byte}
    (h : s.Waiting (g :: 0x01 :: more) since (.call .poll (.poll now) :: es))
    (hlate : 100 ≤ (now - since).toNat) :
    ∃ v, step s = .next v ∧ v.x = s.x ∧ v.out = s.out ∧ v.Waiting (0x01 :: more) now es := by
  obtain ⟨hbytes, _, _⟩ := h.drained
  obtain ⟨e, hparse⟩ := parse_garbage Config.params g more
  rw [← hbytes] at hparse
  obtain ⟨v, hstep, hx, _, hqueue, _, _, hpending, hrealign, _⟩ :=
    failedParseRealignsOrEchoes now s es e h.inv h.takes (h.ready (List.cons_ne_nil _ _) hlate) hparse
  have hlen : 1 < ((s.withPending es).drained now).asmLen := by
    rw [← asmBytes_length, hbytes]
    exact Nat.le_add_left 2 more.length
  obtain ⟨hmore, hlast, hout⟩ := hrealign 1 (Nat.le_refl 1) hlen (by rw [hbytes]; rfl)
    (fun j h1 hj => absurd hj (Nat.not_lt.2 h1))
  have hwaiting := h.of_step hstep hqueue hpending
  rw [hbytes, List.drop_one, List.tail_cons] at hmore
  rw [hmore, hlast] at hwaiting
  exact ⟨v, hstep, hx, hout, hwaiting⟩

end Waiting

/-- The bytes of a request begin with the marker (R92, R94). -/
theorem encode_request_eq_cons (p : Params) {i : Instr} (h : i.isRequest = true) :
    ∃ more, encode p i = 0x01 :: more := by
  match i, h with
  | .rdreq _ _, _ => exact ⟨_, rfl⟩
  | .wrreq _ _ _, _ => exact ⟨_, rfl⟩

/-- Settles O44: a poll for the first frame, one for the garbage, one for the second frame. -/
theorem resyncRecoversTheSecondFrame : Obligations.ResyncRecoversTheSecondFrame := by
  intro s i j g t1 t2 t3 rest hinv hiwf hireq hjwf hjreq hfifo hbytes hpending h1 h2 h3
  have hs : s.Waiting (encode Config.params i ++ (g :: encode Config.params j)) s.lastActivity _ :=
    ⟨hinv, hfifo, hbytes.trans (List.append_assoc _ [g] _), rfl, hpending⟩
  obtain ⟨u, hu, _⟩ := exec_extends i s
  obtain ⟨v, hv, _⟩ := exec_extends j u
  obtain ⟨s1, hstep1, hx1, hout1, hs1⟩ := hs.step_frame hiwf hireq h1 hu
  obtain ⟨more, hj⟩ := encode_request_eq_cons Config.params hjreq
  rw [if_neg (List.cons_ne_nil _ _), hj] at hs1
  obtain ⟨s2, hstep2, hx2, hout2, hs2⟩ := hs1.step_garbage h2
  obtain ⟨v', hv', hvx, hvout⟩ := exec_congr (hx2.trans hx1) (hout2.trans hout1) hv
  rw [← hj, ← List.append_nil (encode Config.params j)] at hs2
  obtain ⟨s3, hstep3, hx3, hout3, hs3⟩ := hs2.step_frame hjwf hjreq h3 hv'
  have hrun : Host.Core.run Sys2Proof.core 3 s = .next s3 :=
    calc Host.Core.run Sys2Proof.core 3 s
        = Host.Core.run Sys2Proof.core 2 s1 := run_succ_of_next 2 hstep1
      _ = Host.Core.run Sys2Proof.core 1 s2 := run_succ_of_next 1 hstep2
      _ = Host.Core.run Sys2Proof.core 0 s3 := run_succ_of_next 0 hstep3
      _ = .next s3 := rfl
  have hempty : s3.asmLen = 0 := by rw [← asmBytes_length, hs3.bytes, List.length_nil]
  exact ⟨u, v, s3, hu, hv, hrun, hx3.trans hvx, hout3.trans hvout, hempty, hs3.pending_eq⟩

end Sys2Proof.Machine
end

section
/-! PROOF. The read and write commands and the register entries they run (R200 to R223): what an
instruction leaves alone, when a request is answered, and what the write loop does below the
threshold and from it on. -/

namespace Sys2Proof.Machine

/-! ## What every instruction leaves alone (R223, R245) -/

theorem Extends.sameButRegistersAndOutputs {s t : State} (hx : Extends s t) :
    sameButRegistersAndOutputs s t := by
  obtain ⟨x, os, rfl⟩ := hx
  exact ⟨⟨fun _ => rfl, fun _ => rfl⟩, rfl, rfl, rfl, rfl, rfl, rfl, rfl, rfl, rfl⟩

/-- Settles O55: an instruction writes the register table and appends outputs, and that is all. -/
theorem instructionsTouchRegistersAndOutputsOnly :
    Obligations.InstructionsTouchRegistersAndOutputsOnly := by
  intro i s
  obtain ⟨t, ht, hx⟩ := exec_extends i s
  exact ⟨t, ht, hx.sameButRegistersAndOutputs, hx.out_prefix⟩

/-! ## When a request is answered (R203 to R206, R211, R212, R220, R221) -/

/-- A valid read sends the values of its registers, then `Ack` (R205, R206). -/
theorem exec_rdreq_of_valid {address count : Word} (s : State) (h : readConditions address count) :
    exec (.rdreq address count) s = .next (s.append (answer
      (rdrspBody (registerValues s.x address.toNat count.toNat)))) := by
  show Host.Outcome.next (readCommand Config.params address count s) = _
  rw [readCommand, if_pos ((readValid_iff address count).2 h), emit_eq, sendReadResponse, txBytes_eq,
    State.append_append]
  rfl

/-- An invalid read does nothing (R204). -/
theorem exec_rdreq_of_invalid {address count : Word} (s : State)
    (h : ¬ readConditions address count) : exec (.rdreq address count) s = .next s :=
  congrArg Host.Outcome.next (if_neg (mt (readValid_iff address count).1 h))

/-- A valid write runs its loop, then sends one response, then `Ack` (R221). -/
theorem exec_wrreq_of_valid {address count : Word} {data : List Byte} (s : State)
    (h : writeConditions address count data.length) :
    exec (.wrreq address count data) s =
      .next ((writeLoop Config.params count.toNat address.toNat data s).append
        (answer (writeAnswerBody address count))) := by
  show Host.Outcome.next (writeCommand Config.params address count data s) = _
  rw [writeCommand, if_pos ((writeValid_iff _ _ _).2 h), emit_eq, sendWriteResponse, txBytes_eq,
    State.append_append]
  rfl

/-- An invalid write does nothing (R212). -/
theorem exec_wrreq_of_invalid {address count : Word} {data : List Byte} (s : State)
    (h : ¬ writeConditions address count data.length) :
    exec (.wrreq address count data) s = .next s :=
  congrArg Host.Outcome.next (if_neg (mt (writeValid_iff _ _ _).1 h))

/-- An invalid request does nothing (R204, R212). -/
theorem exec_of_invalidRequest {i : Instr} (s : State) (h : invalidRequest i) :
    exec i s = .next s := by
  rcases h with ⟨address, count, rfl, hinvalid⟩ | ⟨address, count, data, rfl, hinvalid⟩
  · exact exec_rdreq_of_invalid s hinvalid
  · exact exec_wrreq_of_invalid s hinvalid

/-- The bytes of a read response before its checksum, register by register (R93, R205). -/
theorem rdrspBody_registerValues (x : Regs) (address n : Nat) :
    rdrspBody (registerValues x address n) =
      [0x01#8, 0x03#8, BitVec.ofNat 8 (2 * n)] ++
        (List.range n).flatMap fun k => be16 (x.at (address + k)) := by
  rw [rdrspBody, registerValues, List.length_map, List.length_range, List.flatMap_map]
  rfl

/-- Settles O14: the answer of a valid read holds the values of its registers. -/
theorem readCommandAnswersExactlyWhenValid : Obligations.ReadCommandAnswersExactlyWhenValid := by
  intro address count s
  refine ⟨fun hvalid => ?_, exec_rdreq_of_invalid s⟩
  rw [exec_rdreq_of_valid s hvalid, rdrspBody_registerValues]

/-- Settles O15: the write command's branch for a request that fails validation. -/
theorem invalidWriteChangesNothing : Obligations.InvalidWriteChangesNothing :=
  fun _ _ _ s hinvalid => exec_wrreq_of_invalid s hinvalid

/-- Settles O41: the frame is removed like any other, and its execution does nothing. -/
theorem invalidRequestIsConsumedSilently : Obligations.InvalidRequestIsConsumedSilently := by
  intro now s rest i len hinv htakes t hready hparse hinvalid
  obtain ⟨u, v, hu, hstep, hx, hout, hbytes, hphase, _, hqueue, hoverflow, _⟩ :=
    pollRunsAndRemovesTheFrame now s rest i len hinv htakes hready hparse
  cases (exec_of_invalidRequest t hinvalid).symm.trans hu
  exact ⟨v, hstep, hx, hout, hbytes, hqueue, hoverflow, hphase⟩

/-! ## The register entries alone (R215 to R219) -/

/-- The entry of an id is the work of one iteration of the write loop (R213). -/
theorem exec_entryOf (r : RegId) (data : List Byte) (s : State) :
    exec (entryOf r data) s = .next (writeEntry Config.params r data s) := by
  cases r <;> rfl

/-- An entry below the threshold emits at most one action, whatever the state, and stores nothing
(R216 to R219). -/
theorem writeEntry_of_not_stored (p : Params) {r : RegId} (data : List Byte)
    (h : r.stored = false) : ∃ a : List Action, a.length ≤ 1 ∧
      ∀ s, writeEntry p r data s = s.append (a.map .action) := by
  match r, h with
  | .unassigned0, _ => exact ⟨[], Nat.zero_le 1, fun _ => rfl⟩
  | .powerOff, _ => exact ⟨[.shutdown], Nat.le_refl 1, fun _ => rfl⟩
  | .setAlarm, _ => exact ⟨[.setAlarm _], Nat.le_refl 1, fun _ => rfl⟩
  | .deleteAlarm, _ => exact ⟨[.deleteAlarm _], Nat.le_refl 1, fun _ => rfl⟩
  | .execShortcut, _ => exact ⟨[.execShortcut _], Nat.le_refl 1, fun _ => rfl⟩
  | .setUtc, _ => exact ⟨[.setClock _], Nat.le_refl 1, fun _ => rfl⟩
  | .unassigned6, _ => exact ⟨[], Nat.zero_le 1, fun _ => rfl⟩

/-- An entry from the threshold on is `RegSet` of its first payload word (R215). -/
theorem writeEntry_of_stored (p : Params) {r : RegId} (data : List Byte) (s : State)
    (h : r.stored = true) : writeEntry p r data s = writeStored p r (be16Val data) s := by
  match r, h with
  | .heatStatus, _ => rfl
  | .heatLevel, _ => rfl
  | .heatTimer, _ => rfl
  | .shortcut1, _ => rfl
  | .shortcut2, _ => rfl

/-- R219: the entries without a dispatcher entry do nothing. -/
theorem exec_regUnassigned0 (v : Word) (s : State) : exec (.regUnassigned0 v) s = .next s :=
  congrArg Host.Outcome.next (State.append_nil s)

theorem exec_regUnassigned6 (v : Word) (s : State) : exec (.regUnassigned6 v) s = .next s :=
  congrArg Host.Outcome.next (State.append_nil s)

/-- Settles O6: 32-bit addition wraps modulo 2^32. -/
theorem setUtcEntryAddsTheOffset : Obligations.SetUtcEntryAddsTheOffset :=
  fun ts _ => ⟨clockValue ts, rfl, BitVec.toNat_add ts Config.utcOffsetS⟩

/-- R252: 60 times a 16-bit value does not wrap in 32 bits. -/
theorem timerSeconds_eq (v : Word) : timerSeconds v = BitVec.ofNat 32 (60 * v.toNat) := by
  unfold timerSeconds
  bv_omega

/-- Settles O7: each entry is `RegSet` of its id, and a shortcut slot has no action. -/
theorem storedEntriesStoreAndDispatchOnChange :
    Obligations.StoredEntriesStoreAndDispatchOnChange := by
  intro v s
  have hentry {r : RegId} (hr : r.stored = true) :=
    congrArg (Host.Outcome.next (φ := Fault) (ρ := Refusal))
      (writeStored_eq Config.params v s hr)
  refine ⟨hentry (r := .heatStatus) rfl, hentry (r := .heatLevel) rfl, ?heatTimer, ?shortcut1,
    ?shortcut2⟩
  case heatTimer =>
    rw [← timerSeconds_eq]
    exact hentry (r := .heatTimer) rfl
  case shortcut1 =>
    rw [← State.append_nil (s.withX _)]
    exact hentry (r := .shortcut1) rfl
  case shortcut2 =>
    rw [← State.append_nil (s.withX _)]
    exact hentry (r := .shortcut2) rfl

/-! ## A write below the threshold (R214, R216 to R219) -/

/-- The loop stops after the entry of a sub-threshold register (R214). -/
theorem writeLoop_of_not_stored (p : Params) {r : RegId} {n : Nat} (data : List Byte) (s : State)
    (h : r.stored = false) (hn : 1 ≤ n) :
    writeLoop p n r.num data s = writeEntry p r data s := by
  obtain ⟨n, rfl⟩ := Nat.exists_eq_add_of_le' hn
  simp [writeLoop, h]

/-- A valid write below the threshold is the entry of its first register, and the answer to the whole
write (R213, R214, R220). -/
theorem exec_wrreq_of_entry {r : RegId} {address count : Word} {data : List Byte} {s t : State}
    (hr : r.num = address.toNat) (hstored : r.stored = false)
    (h : writeConditions address count data.length) (ht : exec (entryOf r data) s = .next t) :
    exec (.wrreq address count data) s =
      .next (t.append (answer (writeAnswerBody address count))) := by
  have ⟨hcount, _⟩ := h
  cases (exec_entryOf r data s).symm.trans ht
  rw [exec_wrreq_of_valid s h, ← hr, writeLoop_of_not_stored _ data s hstored hcount]

/-- Settles O17: the entry of the first register, run alone and by the write. -/
theorem writeBelowThresholdRunsOneEntry : Obligations.WriteBelowThresholdRunsOneEntry := by
  intro address count data s h hlow
  rcases RegId.ofNum_cases address.toNat with ⟨r, hr, hofNum⟩ | ⟨hge, _⟩
  · have hstored : r.stored = false := by
      rw [Bool.eq_false_iff, ne_eq, r.stored_iff]
      omega
    obtain ⟨a, ha, hentry⟩ := writeEntry_of_not_stored Config.params data hstored
    have hexec : exec (entryOf r data) s = .next (s.append (a.map .action)) := by
      rw [exec_entryOf, hentry]
    refine ⟨entryOf r data, a, by rw [decodeEntry, hofNum]; rfl, ha, hexec, ?_⟩
    rw [exec_wrreq_of_entry hr hstored h hexec, State.append_append]
  · omega

/-- Settles O4: the two entries, and the writes that start at them. -/
theorem unassignedIdsEmitNothingAndAreAnswered :
    Obligations.UnassignedIdsEmitNothingAndAreAnswered := by
  refine ⟨exec_regUnassigned0, exec_regUnassigned6, fun address count data s haddress h => ?_⟩
  rcases haddress with h0 | h6
  · exact exec_wrreq_of_entry (r := .unassigned0) h0.symm rfl h (exec_regUnassigned0 _ s)
  · exact exec_wrreq_of_entry (r := .unassigned6) h6.symm rfl h (exec_regUnassigned6 _ s)

/-- R211: the two ids that take four payload bytes refuse a write of two. -/
theorem not_writeConditions_of_two_bytes {address : Word} (count : Word)
    (h : address.toNat = 2 ∨ address.toNat = 5) : ¬ writeConditions address count 2 := by
  rintro ⟨_, _, _, hfour⟩
  exact absurd (hfour h) (by decide)

/-- R211: the same ids accept every count their registers and the payload leave room for. -/
theorem writeConditions_of_four_bytes {address count : Word} {more : List Byte}
    (hlen : more.length + 4 = 2 * count.toNat) (hend : address.toNat + count.toNat ≤ 12) :
    writeConditions address count (more.length + 4) :=
  ⟨by omega, hend, hlen, fun _ => Nat.le_add_left 4 _⟩

/-- Settles O18: the entry of the first register is the set-alarm entry on two payload words. -/
theorem setAlarmWriteDecodesThePayload : Obligations.SetAlarmWriteDecodesThePayload := by
  refine ⟨fun count b0 b1 b2 b3 more s hlen hend => ?_, fun b0 b1 s =>
    exec_wrreq_of_invalid s (not_writeConditions_of_two_bytes 1 (.inl rfl))⟩
  obtain ⟨r, hexec, hfields⟩ := setAlarmEntryDecodesTheHalves
    (be16Val (b0 :: b1 :: b2 :: b3 :: more)) (be16Val (b2 :: b3 :: more)) s
  have hwrite := exec_wrreq_of_entry (r := .setAlarm) (address := 2) rfl rfl
    (writeConditions_of_four_bytes (address := 2) hlen hend) hexec
  rw [be16Val_toNat, be16Val_toNat] at hfields
  rw [State.append_append] at hwrite
  exact ⟨r, hwrite, hfields⟩

/-- Settles O19: the entry of the first register is the set-UTC entry on four payload bytes. -/
theorem setUtcWriteProgramsTheClock : Obligations.SetUtcWriteProgramsTheClock := by
  refine ⟨fun count b0 b1 b2 b3 more s hlen hend => ?_, fun b0 b1 s =>
    exec_wrreq_of_invalid s (not_writeConditions_of_two_bytes 1 (.inr rfl))⟩
  obtain ⟨t, hexec, ht⟩ := setUtcEntryAddsTheOffset (be32Val (b0 :: b1 :: b2 :: b3 :: more)) s
  have hwrite := exec_wrreq_of_entry (r := .setUtc) (address := 5) rfl rfl
    (writeConditions_of_four_bytes (address := 5) hlen hend) hexec
  rw [be32Val_toNat] at ht
  rw [State.append_append] at hwrite
  exact ⟨t, hwrite, ht⟩

/-! ## A write from the threshold on (R215) -/

/-- The actions of setting id `id` to `v` in the table `x`: its dispatch where the value changes, none
where it does not (R242, R243). -/
def changeActions (p : Params) (x : Regs) (id : Nat) (v : Word) : List Action :=
  if x.at id = v then [] else dispatchActions p (BitVec.ofNat 16 id) v

theorem changeActions_congr (p : Params) {x y : Regs} {id : Nat} (v : Word)
    (h : y.at id = x.at id) : changeActions p y id v = changeActions p x id v := by
  rw [changeActions, changeActions, h]

theorem changeActions_map_action (p : Params) (x : Regs) (id : Nat) (v : Word) :
    (changeActions p x id v).map Output.action =
      if x.at id = v then [] else (dispatchActions p (BitVec.ofNat 16 id) v).map .action :=
  apply_ite (List.map Output.action) _ _ _

/-- The dispatcher on the number of an id (R245). -/
theorem dispatchActions_num (p : Params) (r : RegId) (v : Word) :
    dispatchActions p (BitVec.ofNat 16 r.num) v = sideEffect p r v := by
  rw [dispatchActions, RegId.toNat_ofNat_num, RegId.ofNum_num]

/-- Only the id that was set reads differently (R22). -/
theorem Regs.at_set (x : Regs) {r : RegId} (v : Word) (hr : r.stored = true) (id : Nat) :
    (x.set r v).at id = if id = r.num then v else x.at id := by
  by_cases hid : id = r.num
  · rw [if_pos hid, hid, Regs.at_num, Regs.get_set_same x v hr]
  · rw [if_neg hid]
    rcases RegId.ofNum_cases id with ⟨r', rfl, _⟩ | ⟨hge, _⟩
    · rw [Regs.at_num, Regs.at_num, Regs.get_set_ne x v fun h => hid (congrArg RegId.num h)]
    · rw [Regs.at_of_ge _ hge, Regs.at_of_ge _ hge]

/-- Setting a stored register leaves it at the value, every other id as it was, and emits the actions
of the change, whether or not there is one (R215, R242). -/
theorem exists_writeStored_eq (p : Params) {r : RegId} (v : Word) (s : State)
    (hr : r.stored = true) :
    ∃ y : Regs, (∀ id, y.at id = if id = r.num then v else s.x.at id) ∧
      writeStored p r v s = (s.withX y).append ((changeActions p s.x r.num v).map .action) := by
  rw [writeStored_eq p v s hr, changeActions, Regs.at_num, dispatchActions_num]
  by_cases hv : s.x.get r = v
  · refine ⟨s.x, fun id => ?_, ?_⟩
    · split
      · next hid => rw [hid, Regs.at_num, hv]
      · rfl
    · rw [if_pos hv, if_pos hv]
      exact (State.append_nil s).symm
  · refine ⟨s.x.set r v, Regs.at_set s.x v hr, ?_⟩
    rw [if_neg hv, if_neg hv]

/-- The loop goes on after a stored register (R213). -/
theorem writeLoop_succ_of_stored (p : Params) {r : RegId} (n : Nat) (data : List Byte) (s : State)
    (hr : r.stored = true) :
    writeLoop p (n + 1) r.num data s =
      writeLoop p n (r.num + 1) (data.drop 2) (writeStored p r (be16Val data) s) := by
  simp [writeLoop, hr, writeEntry_of_stored]

/-- The next iteration's payload begins one value later (R213). -/
theorem writeValue_drop_two (data : List Byte) (i : Nat) :
    writeValue (data.drop 2) i = writeValue data (i + 1) := by
  rw [writeValue, writeValue, List.drop_drop, Nat.mul_succ, Nat.add_comm]

/-- R215, by induction on the iterations: the loop over stored registers sets each to its value and no
other, and emits the actions of each change from the table it began with, because an iteration changes
no id but its own. -/
theorem exists_writeLoop_eq (p : Params) (n id : Nat) (data : List Byte) (s : State)
    (h7 : 7 ≤ id) (h12 : id + n ≤ 12) :
    ∃ x : Regs,
      (∀ k, x.at k = if id ≤ k ∧ k < id + n then writeValue data (k - id) else s.x.at k) ∧
      writeLoop p n id data s = (s.withX x).append
        (((List.range n).flatMap fun i =>
          changeActions p s.x (id + i) (writeValue data i)).map .action) := by
  induction n generalizing id data s with
  | zero =>
    exact ⟨s.x, fun k => (if_neg (by omega)).symm, (State.append_nil s).symm⟩
  | succ n ih =>
    rcases RegId.ofNum_cases id with ⟨r, rfl, _⟩ | ⟨hge, _⟩
    · have hr : r.stored = true := r.stored_iff.2 h7
      obtain ⟨y, hy, hfirst⟩ := exists_writeStored_eq p (be16Val data) s hr
      obtain ⟨x, hx, hrest⟩ := ih (r.num + 1) (data.drop 2) (writeStored p r (be16Val data) s)
        (by omega) (by omega)
      rw [hfirst] at hx hrest
      refine ⟨x, fun k => ?values, ?outputs⟩
      case values =>
        rw [hx, State.append_x, State.withX_x, hy, writeValue_drop_two]
        by_cases hk : k = r.num
        · rw [if_neg (by omega), if_pos hk, if_pos (by omega), hk, Nat.sub_self]
          rfl
        · by_cases hin : r.num + 1 ≤ k ∧ k < r.num + 1 + n
          · rw [if_pos hin, if_pos (by omega), show k - (r.num + 1) + 1 = k - r.num by omega]
          · rw [if_neg hin, if_neg hk, if_neg (by omega)]
      case outputs =>
        have hlater (i : Nat) : changeActions p y (r.num + 1 + i) (writeValue (data.drop 2) i) =
            changeActions p s.x (r.num + (i + 1)) (writeValue data (i + 1)) := by
          rw [writeValue_drop_two, Nat.add_assoc, Nat.add_comm 1]
          exact changeActions_congr p _ ((hy _).trans (if_neg (by omega)))
        rw [writeLoop_succ_of_stored p n data s hr, hfirst, hrest, List.range_succ_eq_map,
          List.flatMap_cons, List.flatMap_map, List.map_append]
        simp only [State.append_x, State.withX_x, hlater]
        exact State.append_append (s.withX x) _ _
    · omega

/-- A valid write from the threshold on is its loop and the answer (R215, R220). -/
theorem exec_wrreq_of_stored {address count : Word} {data : List Byte} (s : State)
    (h : writeConditions address count data.length) (h7 : 7 ≤ address.toNat) :
    ∃ x : Regs,
      (∀ k, x.at k = if address.toNat ≤ k ∧ k < address.toNat + count.toNat
        then writeValue data (k - address.toNat) else s.x.at k) ∧
      exec (.wrreq address count data) s = .next ((s.withX x).append
        (((List.range count.toNat).flatMap fun i =>
          changeActions Config.params s.x (address.toNat + i) (writeValue data i)).map .action ++
          answer (writeAnswerBody address count))) := by
  have ⟨_, hend, _⟩ := h
  obtain ⟨x, hx, hloop⟩ := exists_writeLoop_eq Config.params count.toNat address.toNat data s h7 hend
  exact ⟨x, hx, by rw [exec_wrreq_of_valid s h, hloop, State.append_append]⟩

/-- Settles O16: the actions of the changes, as outputs one change after the other. -/
theorem validWriteSetsItsStoredRegisters : Obligations.ValidWriteSetsItsStoredRegisters := by
  intro address count data s h h7
  obtain ⟨x, hx, hexec⟩ := exec_wrreq_of_stored s h h7
  rw [List.map_flatMap] at hexec
  simp only [changeActions_map_action] at hexec
  exact ⟨x, hx, hexec⟩

/-! ## Every valid write (R220, R222) -/

/-- Settles O20: below the threshold the table stays and the actions are the entry's; from it on both
are the loop's. -/
theorem validWriteSendsOneResponse : Obligations.ValidWriteSendsOneResponse := by
  intro address count data s h
  rcases Nat.lt_or_ge address.toNat 7 with hlow | h7
  · obtain ⟨_, a, _, _, _, hexec⟩ := writeBelowThresholdRunsOneEntry address count data s h hlow
    exact ⟨s.x, a, hexec⟩
  · obtain ⟨x, _, hexec⟩ := exec_wrreq_of_stored s h h7
    exact ⟨x, _, hexec⟩

/-- Settles O21: the frame is the encoding of the write, and its one value changes id 7. -/
theorem scenarioMakesHeatingActive : Obligations.ScenarioMakesHeatingActive := by
  intro p s hzero
  refine ⟨parse_encode_wrreq p 7 1 (data := [0x00, 0x01]) (by decide) [], ?_⟩
  have hvalid : writeConditions 7 1 ([0x00, 0x01] : List Byte).length :=
    ⟨by decide, by decide, by decide, by decide⟩
  have hchanged : s.x.get .heatStatus ≠ 1 := by
    show s.x.heatStatus ≠ 1
    rw [hzero]
    decide
  have hloop : writeLoop Config.params (1 : Word).toNat (7 : Word).toNat [0x00, 0x01] s =
      (s.withX { s.x with heatStatus := 1 }).append [.action (.setHeatingActive true)] :=
    calc writeLoop Config.params (1 : Word).toNat (7 : Word).toNat [0x00, 0x01] s
        = writeStored Config.params .heatStatus 1 s :=
          writeLoop_succ_of_stored Config.params (r := .heatStatus) 0 [0x00, 0x01] s rfl
      _ = (s.withX { s.x with heatStatus := 1 }).append [.action (.setHeatingActive true)] :=
          (writeStored_eq Config.params 1 s rfl).trans (if_neg hchanged)
  rw [exec_wrreq_of_valid s hvalid, hloop, State.append_append]
  rfl

end Sys2Proof.Machine
end

section
/-! PROOF. The Register Bus (R240 to R255): the dispatcher on every id, what `RegGet` and `RegSet`
answer and do, the upload, and the entries that only dispatch. -/

namespace Sys2Proof.Machine

/-! ## The dispatcher on every id (R245, R246) -/

/-- The dispatcher on an id of the table. -/
theorem dispatchActions_of_num (p : Params) {r : RegId} {id : Word} (v : Word)
    (hr : r.num = id.toNat) : dispatchActions p id v = sideEffect p r v := by
  rw [dispatchActions, ← hr, RegId.ofNum_num]

/-- The dispatcher on an undefined id. -/
theorem dispatchActions_of_ge (p : Params) {id : Word} (v : Word) (h : 12 ≤ id.toNat) :
    dispatchActions p id v = [] := by
  rcases RegId.ofNum_cases id.toNat with ⟨r, hr, _⟩ | ⟨_, hnone⟩
  · have := r.num_lt
    omega
  · rw [dispatchActions, hnone]

/-- Settles O8: id by id for the twelve of the table; every other id is above all the numbers named. -/
theorem dispatcherMappingIsComplete : Obligations.DispatcherMappingIsComplete := by
  intro p id v
  rcases RegId.ofNum_cases id.toNat with ⟨r, hr, _⟩ | ⟨hge, _⟩
  · rw [dispatchActions_of_num p v hr, ← hr, ← timerSeconds_eq]
    cases r <;> rfl
  · rw [dispatchActions_of_ge p v hge, if_neg (by omega), if_neg (by omega), if_neg (by omega),
      if_neg (by omega), if_neg (by omega), if_neg (by omega)]

/-! ## `RegGet` (R240) -/

/-- The value of an id, slot by slot (R21, R23). -/
theorem Regs.at_eq (x : Regs) (id : Nat) :
    x.at id = if id = 7 then x.heatStatus else if id = 8 then x.heatLevel
      else if id = 9 then x.heatTimer else if id = 10 then x.shortcut1
      else if id = 11 then x.shortcut2 else 0 := by
  rcases RegId.ofNum_cases id with ⟨r, rfl, _⟩ | ⟨hge, _⟩
  · rw [Regs.at_num]
    cases r <;> rfl
  · rw [Regs.at_of_ge x hge, if_neg (by omega), if_neg (by omega), if_neg (by omega),
      if_neg (by omega), if_neg (by omega)]

/-- Settles O9: a `RegGet` step answers the value of the id in the register table. -/
theorem regGetAnswersStoredValueOrZero : Obligations.RegGetAnswersStoredValueOrZero := by
  intro id s rest htakes
  rw [step_regGet htakes, Regs.at_eq]

/-! ## `RegSet` (R242 to R244) -/

/-- R242: `RegSet` of a stored register that holds another value. -/
theorem regSet_of_changed (p : Params) {r : RegId} {id v : Word} {s : State}
    (hr : r.num = id.toNat) (h7 : 7 ≤ id.toNat) (hv : s.x.get r ≠ v) :
    regSetChanges id v s = true ∧
      regSet p id v s =
        (s.withX (s.x.set r v)).append ((dispatchActions p id v).map .action) := by
  rcases regSet_cases p id v s with ⟨r', hr', _, _, hchanges, hset⟩ | ⟨hsame, _, _⟩
  · cases RegId.num_injective (hr'.trans hr.symm)
    exact ⟨hchanges, by rw [hset, dispatchActions_of_num p v hr]⟩
  · exact absurd (hsame r hr (r.stored_iff.2 (hr.symm ▸ h7))) hv

/-- R243, R244: `RegSet` where no stored register of that id holds another value. -/
theorem regSet_of_unchanged (p : Params) {id v : Word} {s : State}
    (h : ∀ r : RegId, r.num = id.toNat → 7 ≤ id.toNat → s.x.get r = v) :
    regSetChanges id v s = false ∧ regSet p id v s = s := by
  rcases regSet_cases p id v s with ⟨r, hr, hstored, hv, _, _⟩ | ⟨_, hchanges, hset⟩
  · exact absurd (h r hr (hr ▸ r.stored_iff.1 hstored)) hv
  · exact ⟨hchanges, hset⟩

/-- A `RegSet` step that changes nothing answers false. -/
theorem step_regSet_of_unchanged {id v : Word} {s : State} {rest : List Event}
    (htakes : s.takes (.call .poll (.regSet id v)) rest)
    (h : ∀ r : RegId, r.num = id.toNat → 7 ≤ id.toNat → s.x.get r = v) :
    step s = .next ((s.withPending rest).withResult (.changed false)) := by
  obtain ⟨hchanges, hset⟩ := regSet_of_unchanged Config.params (s := s.withPending rest) h
  rw [step_regSet htakes, hset, hchanges]

/-- Settles O10: the two ways a `RegSet` can go. -/
theorem regSetStoresThenDispatchesOnChange : Obligations.RegSetStoresThenDispatchesOnChange := by
  intro id v s rest htakes
  refine ⟨fun r hr h7 hv => ?_, step_regSet_of_unchanged htakes⟩
  obtain ⟨hchanges, hset⟩ := regSet_of_changed Config.params (s := s.withPending rest) hr h7 hv
  rw [step_regSet htakes, hset, hchanges]
  rfl

/-- Settles O11: no stored register has such an id. -/
theorem regSetOutOfRangeDoesNothing : Obligations.RegSetOutOfRangeDoesNothing := by
  intro id v s rest htakes hrange
  refine step_regSet_of_unchanged htakes fun r hr h7 => ?_
  have := r.num_lt
  omega

/-- Settles O12: the register holds the value already, in the second part because the first `RegSet`
left it there. -/
theorem regSetAgainDispatchesNothing : Obligations.RegSetAgainDispatchesNothing := by
  refine ⟨fun id s rest htakes => ?_, fun id v s rest htakes => ?_⟩
  · exact step_regSet_of_unchanged htakes fun r hr _ => by rw [← hr, Regs.at_num]
  · have hx := regSet_extends Config.params id v
      (s.withPending (.call .poll (.regSet id v) :: rest))
    refine ⟨_, step_regSet htakes,
      step_regSet_of_unchanged ⟨hx.phase_eq.trans htakes.1, hx.pending_eq⟩ fun r hr h7 => ?_⟩
    have hread := regSet_at_same Config.params v
      (s.withPending (.call .poll (.regSet id v) :: rest)) h7 (hr ▸ r.num_lt)
    rw [← hr, Regs.at_num] at hread
    exact hread

/-! ## The upload (R255) -/

/-- The six values of an upload: the five slots, and 0 for the id behind them, which is undefined. -/
theorem registerValues_upload (x : Regs) :
    registerValues x Config.uploadBase Config.uploadCount =
      [x.heatStatus, x.heatLevel, x.heatTimer, x.shortcut1, x.shortcut2, 0] := rfl

/-- The bytes of an upload before its checksum. -/
theorem rdrspBody_upload (x : Regs) :
    rdrspBody (registerValues x Config.uploadBase Config.uploadCount) =
      [0x01#8, 0x03#8, 0x0C#8] ++ be16 x.heatStatus ++ be16 x.heatLevel ++ be16 x.heatTimer ++
        be16 x.shortcut1 ++ be16 x.shortcut2 ++ [0x00#8, 0x00#8] := by
  rw [registerValues_upload]
  rfl

/-- An upload transmits the sealed frame of its body. -/
theorem exec_upload (s : State) :
    exec .upload s = .next (s.append ((sealFrame Config.params
      (rdrspBody (registerValues s.x Config.uploadBase Config.uploadCount))).map .byte)) := rfl

/-- Settles O23: the step of the port is the row's execution. -/
theorem uploadSendsFiveRegistersAndZero : Obligations.UploadSendsFiveRegistersAndZero := by
  intro s body sent
  have hexec (t : State) (hx : t.x = s.x) : exec .upload t = .next (t.append sent) := by
    rw [exec_upload, hx, rdrspBody_upload]
    rfl
  exact ⟨hexec s rfl, fun rest htakes => (step_of_takes htakes).trans (hexec _ rfl)⟩

/-! ## The entries that only dispatch (R218, R247 to R249) -/

/-- An entry that only dispatches emits its actions and does nothing else (R218). -/
theorem writeTriggered_eq (p : Params) (r : RegId) (v : Word) (s : State) :
    writeTriggered p r v s = s.append ((sideEffect p r v).map .action) :=
  emitAll_eq (sideEffect p r v) s

/-- Settles O1: the entry is the dispatch of its id. -/
theorem powerOffEntryEmitsShutdown : Obligations.PowerOffEntryEmitsShutdown :=
  fun v s => congrArg Host.Outcome.next (writeTriggered_eq Config.params .powerOff v s)

/-- Settles O2: the entry is the dispatch of its id. -/
theorem deleteAlarmEntryPassesItsIndex : Obligations.DeleteAlarmEntryPassesItsIndex :=
  fun v s => congrArg Host.Outcome.next (writeTriggered_eq Config.params .deleteAlarm v s)

/-- Settles O3: the entry is the dispatch of its id. -/
theorem execShortcutEntryPassesItsId : Obligations.ExecShortcutEntryPassesItsId :=
  fun v s => congrArg Host.Outcome.next (writeTriggered_eq Config.params .execShortcut v s)

end Sys2Proof.Machine
end

section
/-! PROOF. The phase `Validated` of the Frame Decoder (R295, R296): what a step in it runs. -/

namespace Sys2Proof.Machine

/-- A step in phase `Validated` runs the frame at `asm[0]` (R296). -/
theorem step_of_validated {s : State} (hphase : s.phase = .validated) :
    step s = runValidated s := by
  have hne : s.phase ≠ .accumulating := by simp [hphase]
  rw [step_of_phase_ne hne]
  simp only [decodeAttempt, hphase]

/-- Where the bytes at `asm[0]` hold a request, running the frame there is the execution of that
request, then the removal of its bytes (R295, R296). -/
theorem runValidated_of_decode {s t : State} {i : Instr} {len : Nat}
    (hdecode : decode (asmBytes s) = .ok (i, len)) (hexec : exec i s = .next t) :
    runValidated s = .next (retire len t) := by
  rcases runValidated_cases s with ⟨j, n, u, hj, hu, _, hrun⟩ | ⟨e, he, _⟩
  · obtain ⟨rfl, rfl⟩ : i = j ∧ len = n := by simpa [hdecode] using hj
    obtain rfl : t = u := by simpa [hexec] using hu
    exact hrun
  · simp [hdecode] at he

/-- Settles O39: a step in phase `Validated` is a run of the frame, which decodes to `i`. -/
theorem stepRunsTheDecodedInstruction : Obligations.StepRunsTheDecodedInstruction :=
  fun _ _ _ _ hphase hdecode hexec =>
    (step_of_validated hphase).trans (runValidated_of_decode hdecode hexec)

end Sys2Proof.Machine
end

section
/-! PROOF. Nothing stops the block (R300, R335, R340): a power-up, a legal event from any state, and every
schedule of legal events from reset. -/

namespace Sys2Proof.Machine

/-- Settles O48: the step that takes a power-up is the reset, with the events behind it. -/
theorem powerUpIsReset : Obligations.PowerUpIsReset :=
  fun _ _ htakes => step_of_takes htakes

/-! ## A legal event answers a next state (R300) -/

/-- Between polls a step fails only on an illegal event; inside one it is the decode attempt, which
answers always. -/
theorem step_next_of_legal {s : State}
    (hlegal : s.phase = .accumulating → ∀ e ∈ s.pending.head?, e.legal = true) :
    ∃ t, step s = .next t := by
  by_cases hphase : s.phase = .accumulating
  · rcases step_cases hphase with ⟨_, he⟩ | ⟨_, _, he⟩ | ⟨ctx, op, rest, hpend, hillegal, _⟩ |
      ⟨op, rest, _, hport, he⟩
    · exact ⟨_, he⟩
    · exact ⟨_, he⟩
    · have hhead : (Event.call ctx op).legal = true := hlegal hphase _ (by rw [hpend]; rfl)
      exact absurd hhead (by simp [hillegal])
    · rcases runOp_cases op (s.withPending rest) with ⟨hdrain, _⟩ | ⟨_, t, ht⟩
      · exact absurd hport (by simp [hdrain])
      · exact ⟨t, he.trans ht⟩
  · rw [step_of_phase_ne hphase]
    exact decodeAttempt_next s

/-- Settles O51, between polls and inside one. -/
theorem legalEventsNeverStopTheBlock : Obligations.LegalEventsNeverStopTheBlock :=
  fun _ => step_next_of_legal

/-! ## A step takes one event and adds none (R70, R75) -/

theorem poll_pending {now : Tick} {s t : State} (ht : poll now s = .next t) :
    t.pending = s.pending := by
  rcases poll_cases now s with ⟨_, he⟩ | ⟨_, i, len, u, _, hu, he⟩ | ⟨_, e, _, he⟩ <;>
    cases he.symm.trans ht
  · rfl
  · exact (extends_of_exec hu).pending_eq
  · exact takeFrameError_pending _ e _

/-- No port operation touches the events still to come. -/
theorem runOp_pending {op : PortOp} {s t : State} (ht : runOp op s = .next t) :
    t.pending = s.pending := by
  cases op with
  | push b => cases ht; exact push_pending b s
  | poll now => exact poll_pending ht
  | upload => exact (extends_of_exec (i := .upload) ht).pending_eq
  | regGet id => cases ht; rfl
  | regSet id v => cases ht; exact (regSet_extends _ id v s).pending_eq
  | drain n => cases ht

theorem step_pending {s t : State} (hphase : s.phase = .accumulating) (ht : step s = .next t) :
    t.pending = s.pending.tail := by
  rcases step_cases hphase with ⟨hpend, he⟩ | ⟨rest, hpend, he⟩ | ⟨_, _, _, _, _, he⟩ |
    ⟨op, rest, hpend, _, he⟩
  · cases he.symm.trans ht
    simp [hpend]
  · cases he.symm.trans ht
    rw [hpend]
    rfl
  · cases he.symm.trans ht
  · rw [hpend]
    exact runOp_pending (he.symm.trans ht)

/-! ## Runs under a legal schedule (R300, R320) -/

/-- A property from which every step answers a next state that has it again holds along every run. -/
theorem run_next_of_invariant {P : State → Prop}
    (hstep : ∀ s, P s → ∃ t, step s = .next t ∧ P t) (n : Nat) {s : State} (h : P s) :
    ∃ t : State, Host.Core.run Sys2Proof.core n s = .next t ∧ P t := by
  induction n generalizing s with
  | zero => exact ⟨s, rfl, h⟩
  | succ n ih =>
    obtain ⟨u, hu, hPu⟩ := hstep s h
    obtain ⟨t, hrun, hPt⟩ := ih hPu
    exact ⟨t, (run_succ_of_next n hu).trans hrun, hPt⟩

/-- A state of the block whose events still to come are all legal. -/
def State.LegallyScheduled (s : State) : Prop :=
  s.Inv ∧ ∀ e ∈ s.pending, e.legal = true

theorem State.LegallyScheduled.step_next {s : State} (h : s.LegallyScheduled) :
    ∃ t, step s = .next t ∧ t.LegallyScheduled := by
  obtain ⟨hinv, hlegal⟩ := h
  obtain ⟨t, ht⟩ := step_next_of_legal fun _ e he => hlegal e (List.mem_of_mem_head? he)
  refine ⟨t, ht, stepKeepsTheInvariant s t hinv ht, fun e he => hlegal e ?_⟩
  rw [step_pending hinv.phase_idle ht] at he
  exact List.mem_of_mem_tail he

/-- Settles O52, by induction on the steps: what stays is the block's invariant together with the
legality of the events still to come. -/
theorem legalSchedulesRunOnFromReset : Obligations.LegalSchedulesRunOnFromReset := by
  intro events n hlegal
  have hreset : (State.reset.withPending events).LegallyScheduled :=
    ⟨State.withPending_inv events resetMeetsTheInvariant, hlegal⟩
  obtain ⟨t, hrun, hinv, _⟩ :=
    run_next_of_invariant (fun _ => State.LegallyScheduled.step_next) n hreset
  exact ⟨t, hrun, hinv⟩

end Sys2Proof.Machine
end

section
/-! PROOF. Reset and idleness (R39, R340, R341): what reset leaves, and that with no event to come nothing
happens. -/

namespace Sys2Proof.Machine

/-! ## What reset leaves (R39, R341) -/

/-- Every slot holds 0 after reset, and an id without a slot reads 0 anyway (R23). -/
theorem reset_at (id : Nat) : State.reset.x.at id = 0 := by
  rw [Regs.at_eq]
  simp [State.reset]

/-- With a count of 0 the abstract queue is empty, whatever the ring's slots hold (R25). -/
theorem fifoQueue_empty {s : State} (h : fifoCount s = 0) : fifoQueue s = [] :=
  List.length_eq_zero_iff.1 ((fifoQueue_length s).trans h)

/-- Settles O47: the register table by its ids, the two buffers by their counts, and the rest field by
field. -/
theorem resetLeavesTheStatedValues : Obligations.ResetLeavesTheStatedValues := by
  have hqueue : fifoQueue State.reset = [] := fifoQueue_empty rfl
  have hasm : asmBytes State.reset = [] := asmBytes_empty rfl
  exact ⟨reset_at, hqueue, rfl, rfl, rfl, hasm, rfl, rfl, rfl, rfl⟩

/-! ## With nothing to do (R340) -/

/-- Settles O50: of what a step between polls can do, everything but idling takes an event. -/
theorem idleWithoutEvents : Obligations.IdleWithoutEvents := by
  intro s hphase hpend
  rcases step_cases hphase with ⟨_, hidle⟩ | ⟨_, htakes, _⟩ | ⟨_, _, _, htakes, _⟩ | ⟨_, _, htakes, _⟩
  · exact hidle
  · simp [hpend] at htakes
  · simp [hpend] at htakes
  · simp [hpend] at htakes

end Sys2Proof.Machine
end
